-- ==== Sys2Proof/Word.lean ====
section
/-! DEFINITION. The plain data types of MKCODEC: bytes, bit strings, digests, wordlists (spec/00_scope.md R9 to R11). -/

namespace Sys2Proof

/-- A byte, a natural 0 to 255 (R11). -/
abbrev Byte := BitVec 8

/-- A byte string, position 0 first (R11). -/
abbrev Bytes := List Byte

/-- A BitString: symbols `'0'` (false) and `'1'` (true), position 0 first (R9). -/
abbrev BitString := List Bool

/-- An index into the Wordlist, a natural 0 to 2047 (R31). -/
abbrev Index := Fin 2048

/-- The 32 bytes of a SHA-256 digest, byte 0 first (R55). -/
abbrev Digest := Vector Byte 32

/-- The 32 bytes of one draw from the random source (R95). -/
abbrev Draw := Vector Byte 32

/-- The contents of the Wordlist ROM: entry `i` is a byte string (R31). -/
abbrev Wordlist := Vector Bytes 2048

end Sys2Proof
end

