-- ==== Sys2Proof/Syntax.lean ====
section
/-! DEFINITION. The commands of MKCODEC, one constructor per row of the opcode table (spec/30_encoding.md R72, R74). -/

namespace Sys2Proof

/-- A command, as the decoder of `CMD` reads it (R72, R80). No command has an explicit operand (R75). -/
inductive Instr where
  /-- `NOP` (R160). -/
  | nop
  /-- `ENCODE.RNG`: encode a fresh random draw (R140). -/
  | encodeRng
  /-- `ENCODE.HEX`: encode the entropy text in `HEX` (R141). -/
  | encodeHex
  /-- `DECODE` the phrase in `MNI` (R151). -/
  | decode
  /-- `VALIDATE` the phrase in `MNI` (R152). -/
  | validate
  /-- `CLEAR` every latch (R161). -/
  | clear
  /-- Any of the 250 reserved bytes; `c` is the byte written (R74, R162). -/
  | reserved (c : Byte)
  deriving DecidableEq, Repr

end Sys2Proof
end

