-- ==== Sys2Proof/WellFormed.lean ====
section
/-! DEFINITION. Which bytes are reserved (spec/30_encoding.md R74) and when an `Instr` is one the encoding can express. -/

namespace Sys2Proof

/-- Field `RSV = [7:4]` of format `C` (R71). -/
def fieldRsv (c : Byte) : BitVec 4 := c.extractLsb' 4 4

/-- Field `P = [3]` of format `C` (R71). -/
def fieldP (c : Byte) : BitVec 1 := c.extractLsb' 3 1

/-- Field `OP = [2:0]` of format `C` (R71). -/
def fieldOp (c : Byte) : BitVec 3 := c.extractLsb' 0 3

/-- The reserved bytes, in the words of R74: `RSV ≠ 0000`, or `OP ∈ {101, 110, 111}`, or `P = 1` with `OP ≠ 001`. -/
def isReserved (c : Byte) : Bool :=
  fieldRsv c != 0b0000#4 || [0b101#3, 0b110#3, 0b111#3].contains (fieldOp c) || (fieldP c == 0b1#1 && fieldOp c != 0b001#3)

/-- An instruction is well formed when some byte decodes to it: a `reserved c` holds a reserved byte (R74). -/
def Instr.wf : Instr → Bool
  | .nop => true
  | .encodeRng => true
  | .encodeHex => true
  | .decode => true
  | .validate => true
  | .clear => true
  | .reserved c => isReserved c

end Sys2Proof
end

