-- ==== Sys2Proof/Decode.lean ====
section
/-! DEFINITION. The decoder of `CMD` bytes and the encoder (spec/30_encoding.md R70 to R74, R80). -/

namespace Sys2Proof

/-- The command a byte written to `CMD` encodes; total on the 256 bytes (R72, R74, R80). Rejection is by name: every
byte outside the map of R72 is the command `reserved c`, which fails with `IllegalCommand` (R162). -/
def decodeByte (c : Byte) : Instr :=
  match fieldRsv c, fieldP c, fieldOp c with
  | 0b0000#4, 0b0#1, 0b000#3 => .nop
  | 0b0000#4, 0b0#1, 0b001#3 => .encodeRng
  | 0b0000#4, 0b1#1, 0b001#3 => .encodeHex
  | 0b0000#4, 0b0#1, 0b010#3 => .decode
  | 0b0000#4, 0b0#1, 0b011#3 => .validate
  | 0b0000#4, 0b0#1, 0b100#3 => .clear
  | _, _, _ => .reserved c

/-- The first command of a string of bytes with the bytes after it: every command is one byte long (R70). -/
def decodeBytes : Bytes → Option (Instr × Bytes)
  | [] => none
  | c :: rest => some (decodeByte c, rest)

/-- The byte of a command, put together from the fields of format `C` (R71, R72). -/
def encode : Instr → Byte
  | .nop => 0b0000#4 ++ 0b0#1 ++ 0b000#3
  | .encodeRng => 0b0000#4 ++ 0b0#1 ++ 0b001#3
  | .encodeHex => 0b0000#4 ++ 0b1#1 ++ 0b001#3
  | .decode => 0b0000#4 ++ 0b0#1 ++ 0b010#3
  | .validate => 0b0000#4 ++ 0b0#1 ++ 0b011#3
  | .clear => 0b0000#4 ++ 0b0#1 ++ 0b100#3
  | .reserved c => c

/-- The command byte of an instruction whose table bits are `w`: bits above `nbits` are 0, and a command has 8 bits
(R70). -/
def tableByte (nbits w : Nat) : Byte := BitVec.ofNat 8 (w % 2 ^ nbits)

/-- The instruction the decoder reads from an instruction whose bits are `w`, numbered as the opcode table numbers them. -/
def decodeTableWord (nbits w : Nat) : Option Instr :=
  (decodeBytes [tableByte nbits w]).map Prod.fst

end Sys2Proof
end

