-- ==== Sys2Proof/Machine/Bits.lean ====
section
/-! DEFINITION. Bit strings: `val`, `bin`, substrings, bytes to bits (spec/00_scope.md R9, R10; 20_memory.md R51 to R53; 40_entropy_to_bits.md R94). -/

namespace Sys2Proof.Machine

/-- The symbols of a register, position 0 first: position 0 is the most significant bit (R9, R51). -/
def bitsOf {n : Nat} (v : BitVec n) : BitString := (List.range n).map v.getMsbD

/-- `val(s)`: the first symbol is the most significant (R10). -/
def val (s : BitString) : Nat := s.foldl (fun acc b => 2 * acc + b.toNat) 0

/-- `bin_n(v)`: `v` in base 2, zero-padded on the left to `n` symbols (R10). -/
def bin (n v : Nat) : BitString := bitsOf (BitVec.ofNat n v)

/-- The `n`-bit register that holds the `n` symbols of `s`, position 0 as the most significant bit (R9). -/
def ofBits (n : Nat) (s : BitString) : BitVec n := BitVec.ofNat n (val s)

/-- `v[a .. a + len)`: the substring of a register from position `a` on (R9). -/
def sub {n : Nat} (v : BitVec n) (a len : Nat) : BitVec len := v.extractLsb' (n - a - len) len

/-- `BytesToBits(b)`: eight symbols a byte, most significant bit first, bytes in order (R94, R51, R52). -/
def bytesToBits (b : Bytes) : BitString := b.flatMap fun c => bin 8 c.toNat

end Sys2Proof.Machine
end

