-- ==== Sys2Proof/Config.lean ====
section
/-! DEFINITION. What the spec fixes as constants (R7), what it leaves to the environment (R8), and the model's free values. -/

namespace Sys2Proof.Config

/-- `HEX_MAX` at the spec's default (R8, R23); log entry 10. -/
def hexMax : Nat := 64

/-- `WORD_MAX` at the spec's default (R8, R31 W3); log entry 10. -/
def wordMax : Nat := 8

/-- `PHRASE_MAX` at the spec's default (R8, R24); log entry 10. -/
def phraseMax : Nat := 255

/-- `HEX_MIN`, the least number of hex characters of supplied entropy (R7). -/
def hexMin : Nat := 39

/-- `WORDS`, the number of words of a mnemonic (R7). -/
def words : Nat := 14

/-- The constraints a supplied Wordlist must meet (R31): W1 the entries are pairwise distinct, W2 each is non-empty and
free of the byte 0x20, W3 each has at most `WORD_MAX` bytes. -/
abbrev WordlistOk (wl : Wordlist) : Prop :=
  wl.toList.Nodup ∧ ∀ w ∈ wl.toList, w ≠ [] ∧ 0x20#8 ∉ w ∧ w.length ≤ wordMax

/-- Entry `i` of the spec's fixture Wordlist `TW` (95_test_vectors.md, A-TW): the byte `'w'` and the four decimal digits
of `i`. -/
def fixtureWord (i : Nat) : Bytes :=
  [0x77#8, BitVec.ofNat 8 (0x30 + i / 1000 % 10), BitVec.ofNat 8 (0x30 + i / 100 % 10),
    BitVec.ofNat 8 (0x30 + i / 10 % 10), BitVec.ofNat 8 (0x30 + i % 10)]

/-- The entries `i, i + 1, …` of the fixture, `n` of them. -/
def fixtureFrom : Nat → Nat → List Bytes
  | 0, _ => []
  | n + 1, i => fixtureWord i :: fixtureFrom n (i + 1)

/-- `fixtureFrom` gives as many entries as it is asked for. -/
theorem length_fixtureFrom (n i : Nat) : (fixtureFrom n i).length = n := by
  induction n generalizing i with
  | zero => rfl
  | succ n ih => simp [fixtureFrom, ih]

/-- The fixture Wordlist `TW` (95_test_vectors.md, A-TW). It is a test fixture and not the scheme's list; the model's
tests put it into `State.wl`. -/
def fixtureWordlist : Wordlist :=
  ⟨⟨fixtureFrom 2048 0⟩, by simpa using length_fixtureFrom 2048 0⟩

/-- The Wordlist the platform puts into the ROM, a parameter with no default (R8): a free value, log entry 2. -/
opaque suppliedWordlist : Wordlist

/-- What the ROM holds: the supplied list. The spec states its rules only for lists that meet W1 to W3 (R31, U5); in
the case that the supplied one does not, the fixture stands in, so that this is a free list among those that do; log entry 2. -/
def wordlist : Wordlist :=
  if WordlistOk suppliedWordlist then suppliedWordlist else fixtureWordlist

/-- The answer of the random source to its `k`-th draw that no test bench has chosen (R35, R95): a free value, log
entry 4. -/
opaque rngDraw : Nat → Draw

end Sys2Proof.Config
end

