-- ==== Sys2Proof/Machine/State.lean ====
section
/-! DEFINITION. The state of MKCODEC (spec/10_state.md), the actions of its host (R23, R24, R32, R39, R78), the ways a step can stop, and the
state after reset (R38). -/

namespace Sys2Proof.Machine

/-- The failure kinds of 60_exceptions.md R180. `invalidInput` is the Pipeline's and never raised by the block (R189). -/
inductive Kind where
  | invalidEntropy
  | invalidWordCount
  | unknownWord
  | checksumMismatch
  | internalChecksumMismatch
  | invalidInput
  | illegalCommand
  deriving DecidableEq, Repr

/-- The six flags of `STATUS` (R29). -/
inductive Flag where
  | done
  | errf
  | ovf
  | ovm
  | valid
  | minv
  deriving DecidableEq, Repr

/-- The registers and views the host may read and may not write (R39). -/
inductive OutReg where
  | status
  | err
  | full
  | ent
  | chk
  | idx (k : Fin 14)
  | saltv
  | seedv
  | mno
  deriving DecidableEq, Repr

/-- Everything the host may read (R39). The ROM `WL` is not among them. -/
inductive HostReg where
  | cmd
  | hex
  | mni
  | out (r : OutReg)
  deriving DecidableEq, Repr

/-- What a host read returns: the bits of a register, or the bytes of a buffer. -/
inductive ReadValue where
  | bits (width : Nat) (value : BitVec width)
  | bytes (value : Bytes)
  deriving DecidableEq, Repr

/-- One answer the host has got: the register it read and what it read there. -/
structure Reading where
  reg : HostReg
  value : ReadValue
  deriving DecidableEq, Repr

/-- One action on the block from outside: the host actions of R23, R24, R32, R39, R60 in the order of R78, and the reset
event of R200. `write` carries no value, because it is ignored whatever it carries (R39). -/
inductive Action where
  /-- `LoadHex(b)` (R23). -/
  | loadHex (b : Bytes)
  /-- `LoadMnemonic(b)` (R24). -/
  | loadMnemonic (b : Bytes)
  /-- A write of the byte `c` to `CMD` (R32). -/
  | writeCmd (c : Byte)
  /-- A host read (R39). -/
  | read (r : HostReg)
  /-- A host write to a register it may not write: ignored (R39). -/
  | write (r : OutReg)
  /-- The reset event (R200). -/
  | reset
  /-- The reset event while the command of the byte `c` is running: the command ends with no result (R200). -/
  | resetDuring (c : Byte)
  /-- A label of the host's program (R78). -/
  | label (l : Nat)
  /-- `IF <flag> GOTO <label>`: the host's own branch on the last `STATUS` it read (R78). -/
  | ifGoto (f : Flag) (l : Nat)
  deriving DecidableEq, Repr

/-- The state: the latches of R21, the Wordlist ROM, and the model's own record of what is outside the block (the random
source, the host's program and what the host has read). -/
structure State where
  /-- `STATUS`, 8 bits (R29). -/
  status : BitVec 8
  /-- `ERR`, 4 bits (R30). -/
  err : BitVec 4
  /-- `HEX`, the entropy text (R23). -/
  hex : Bytes
  /-- `MNI`, the phrase in (R24). -/
  mni : Bytes
  /-- `FULL`, 154 bits or no value (R25); position 0 is the most significant bit. -/
  full : Option (BitVec 154)
  /-- `MNO`, the phrase out, or no value (R28). -/
  mno : Option Bytes
  /-- `WL`, the Wordlist ROM (R31): no step writes it (R66); log entry 3. -/
  wl : Wordlist
  /-- The answers a test bench has put at the `RNG` port, next first (R203); log entry 4. -/
  rngPort : List Draw
  /-- How many draws the source itself has answered: the argument of the next free draw; log entry 4. -/
  rngCount : Nat
  /-- The host's actions still to come, next first (R36, R62); log entry 6. -/
  pending : List Action
  /-- The host's actions already issued, latest first; only a backward `GOTO` reads them; log entry 6. -/
  issued : List Action
  /-- What the host has read, latest first; log entry 6. -/
  reads : List Reading
  deriving DecidableEq, Repr

/-- Why the machine stops with a fault. There is no constructor: no command and no host action of MKCODEC stops the
block. A failing command is a next state that reports its kind in `ERR` (R186). -/
inductive Fault where
  deriving DecidableEq, Repr

/-- Why a step has no meaning. -/
inductive Refusal where
  /-- Raised by `exec` for an instruction with no meaning yet; safe. -/
  | notModelled (mnemonic : String)
  /-- Raised by the host action `LoadHex` of a string longer than `HEX_MAX`, which cannot be presented (R23, U4); safe. -/
  | hexTooLong
  /-- Raised by the host action `LoadMnemonic` of a string longer than `PHRASE_MAX` (R24, U4); safe. -/
  | phraseTooLong
  /-- Raised by a host read of `FULL`, a view of it, or `MNO` while it holds no value: a breach of the host protocol
  (R22, R204, U3); safe. -/
  | noValue (r : HostReg)
  /-- Raised by the host's `IF` before it has read `STATUS`, and by a taken `GOTO` whose label the program lacks (R78 gives
  neither a meaning); safe; log entry 9. -/
  | badBranch (l : Nat)
  deriving DecidableEq, Repr

/-- The state right after reset (R38, R200). The ROM holds what the platform supplied (R202); no host action is pending;
log entries 2, 5 and 6 name the values of the fields that are the model's own. -/
def State.reset : State where
  status := 0x00#8
  err := 0#4
  hex := []
  mni := []
  full := none
  mno := none
  wl := Config.wordlist
  rngPort := []
  rngCount := 0
  pending := []
  issued := []
  reads := []

end Sys2Proof.Machine
end

