-- ==== Sys2Proof/Machine/Operands.lean ====
section
/-! DEFINITION. Where a command's implicit operands come from (spec/30_encoding.md R75) and the read-only views of `FULL` (10_state.md R26, R27;
46_pipeline_boundary.md R170, R171). -/

namespace Sys2Proof.Machine

/-- `RngDraw(32)`: the next 32 bytes of the random source and the state in which they are spent (R8, R95). A test bench's
answers come first (R203); after them the source's own, which are free values. -/
def State.takeDraw (s : State) : Draw × State :=
  match s.rngPort with
  | d :: rest => (d, { s with rngPort := rest })
  | [] => (Config.rngDraw s.rngCount, { s with rngCount := s.rngCount + 1 })

/-- The register number the spec assigns, so that a platform or a trace can name a register; a view has none (R21, R61). -/
def HostReg.number : HostReg → Option Nat
  | .cmd => some 0
  | .out .status => some 1
  | .out .err => some 2
  | .hex => some 3
  | .mni => some 4
  | .out .full => some 5
  | .out .mno => some 6
  | .out .ent => none
  | .out .chk => none
  | .out (.idx _) => none
  | .out .saltv => none
  | .out .seedv => none

/-- `ENT = FULL[0..149)` (R26). -/
def entOf (full : BitVec 154) : BitVec 149 := sub full 0 149

/-- `CHK = FULL[149..154)` (R26). -/
def chkOf (full : BitVec 154) : BitVec 5 := sub full 149 5

/-- `Slice11(full, k)`, which is also the view `IDX[k]`: `val(full[11k .. 11k+11))` (R27, R120). -/
def slice11 (full : BitVec 154) (k : Fin 14) : Index :=
  ⟨(sub full (11 * k.val) 11).toNat, (sub full (11 * k.val) 11).isLt⟩

/-- `SALTV = FULL[0..77)` (R170). -/
def saltOf (full : BitVec 154) : BitVec 77 := sub full 0 77

/-- `SEEDV = FULL[77..154)` (R171). -/
def seedOf (full : BitVec 154) : BitVec 77 := sub full 77 77

/-- The view `ENT`, which holds a value exactly when `FULL` does (R26). -/
def State.ent (s : State) : Option (BitVec 149) := s.full.map entOf

/-- The view `CHK` (R26). -/
def State.chk (s : State) : Option (BitVec 5) := s.full.map chkOf

/-- The view `IDX[k]` (R27). -/
def State.idx (s : State) (k : Fin 14) : Option Index := s.full.map (slice11 · k)

/-- The view `SALTV` (R170). -/
def State.saltv (s : State) : Option (BitVec 77) := s.full.map saltOf

/-- The view `SEEDV` (R171). -/
def State.seedv (s : State) : Option (BitVec 77) := s.full.map seedOf

end Sys2Proof.Machine
end

