-- ==== Sys2Proof/Machine/Sha256.lean ====
section
/-! DEFINITION. The hash function `SHA256` at the spec's default, the function of FIPS 180-4 (spec/00_scope.md R8; PRESUMED, log entry 1). Its
constants are computed from the primes they stand for. Checked in the tests against the anchors of 95_test_vectors.md A-SHA. -/

namespace Sys2Proof.Machine

/-- A 32-bit word of the hash. -/
abbrev Word32 := BitVec 32

/-- The hash value between blocks, and the working variables `a` to `h` inside one, in that order. -/
abbrev HashState := Vector Word32 8

/-- The largest `r` with `r ^ d ≤ n` that agrees with `acc` above its lowest `bits` bits, found bit by bit. -/
def rootFrom (d n : Nat) : (bits acc : Nat) → Nat
  | 0, acc => acc
  | k + 1, acc => rootFrom d n k (if (acc + 2 ^ k) ^ d ≤ n then acc + 2 ^ k else acc)

/-- The first 32 bits of the fractional part of the `d`-th root of `p`: the low half of the whole root of `p * 2 ^ (32 * d)`.
37 bits hold that root for every prime below and `d ≥ 2`. -/
def rootFraction (d p : Nat) : Word32 := BitVec.ofNat 32 (rootFrom d (p * 2 ^ (32 * d)) 37 0)

/-- The first 64 primes, from which FIPS 180-4 takes all constants of the hash. -/
def shaPrimes : List Nat :=
  [2, 3, 5, 7, 11, 13, 17, 19, 23, 29, 31, 37, 41, 43, 47, 53, 59, 61, 67, 71, 73, 79] ++
  [83, 89, 97, 101, 103, 107, 109, 113, 127, 131, 137, 139, 149, 151, 157, 163, 167, 173, 179, 181, 191] ++
  [193, 197, 199, 211, 223, 227, 229, 233, 239, 241, 251, 257, 263, 269, 271, 277, 281, 283, 293, 307, 311]

/-- The initial hash value: the square roots of the first eight primes. -/
def shaInit : HashState := ⟨⟨(shaPrimes.take 8).map (rootFraction 2)⟩, rfl⟩

/-- The round constants: the cube roots of the first 64 primes. -/
def shaRoundConstants : List Word32 := shaPrimes.map (rootFraction 3)

/-- The exclusive or of the copies of `x` turned right by each of `turns`. -/
def xorTurns (turns : List Nat) (x : Word32) : Word32 := turns.foldl (fun acc n => acc ^^^ x.rotateRight n) 0

/-- The bits of `y` where `x` has a 1, and of `z` where it has a 0 (`Ch`). -/
def chooseBits (x y z : Word32) : Word32 := z ^^^ (x &&& (y ^^^ z))

/-- The bits that at least two of the three words have (`Maj`). -/
def majorityBits (x y z : Word32) : Word32 := (x &&& (y ||| z)) ||| (y &&& z)

/-- One round on `a` to `h`, with round constant `k` and message word `w`. -/
def shaRound (v : HashState) (k w : Word32) : HashState :=
  let fresh := v[7] + xorTurns [6, 11, 25] v[4] + chooseBits v[4] v[5] v[6] + k + w
  #v[fresh + (xorTurns [2, 13, 22] v[0] + majorityBits v[0] v[1] v[2]), v[0], v[1], v[2], v[3] + fresh, v[4], v[5], v[6]]

/-- The message word that follows a window of sixteen. -/
def shaNext (w : List Word32) : Word32 :=
  let early := w.getD 1 0
  let late := w.getD 14 0
  w.getD 0 0 + (xorTurns [7, 18] early ^^^ early >>> 3) + w.getD 9 0 + (xorTurns [17, 19] late ^^^ late >>> 10)

/-- The rounds, one per constant, over a sliding window of sixteen message words. -/
def shaRounds : List Word32 → List Word32 → HashState → HashState
  | [], _, v => v
  | k :: ks, w, v => shaRounds ks (w.tail ++ [shaNext w]) (shaRound v k (w.headD 0))

/-- The hash value after one block of sixteen words: the old one plus the working variables, word by word. -/
def shaBlock (v : HashState) (block : List Word32) : HashState :=
  let after := shaRounds shaRoundConstants block v
  ⟨⟨List.zipWith (· + ·) v.toList after.toList⟩, by simp⟩

/-- `n` blocks, one after the other. -/
def shaBlocks : Nat → List Word32 → HashState → HashState
  | 0, _, v => v
  | n + 1, w, v => shaBlocks n (w.drop 16) (shaBlock v (w.take 16))

/-- Bytes to big-endian words. -/
def shaWords : Bytes → List Word32
  | a :: b :: c :: d :: rest => (a ++ b ++ c ++ d : BitVec 32) :: shaWords rest
  | _ => []

/-- The padded message: a 1 bit, zeros to 8 bytes short of a block, and the length in bits as 8 bytes. -/
def shaPad (m : Bytes) : Bytes :=
  m ++ [0x80#8] ++ List.replicate ((119 - m.length % 64) % 64) 0#8 ++
    (List.range 8).map fun i : Nat => BitVec.ofNat 8 ((8 * m.length) >>> (8 * (7 - i)))

/-- The four bytes of a word, most significant first. -/
def wordBytes (w : Word32) : Bytes :=
  [w.extractLsb' 24 8, w.extractLsb' 16 8, w.extractLsb' 8 8, w.extractLsb' 0 8]

/-- The 32 bytes of a hash value. -/
def digestOf (v : HashState) : Digest := ⟨⟨v.toList.flatMap wordBytes⟩, by simp [wordBytes]⟩

/-- `SHA256(b)` (R8, R12): total and deterministic. No proof about the machine unfolds it. -/
@[irreducible]
def sha256 (m : Bytes) : Digest :=
  digestOf (shaBlocks ((shaPad m).length / 64) (shaWords (shaPad m)) shaInit)

end Sys2Proof.Machine
end

