-- ==== Sys2Proof/Machine/Csum.lean ====
section
/-! DEFINITION. Unit CSUM, the 5-bit checksum generator and verifier (spec/41_checksum.md). -/

namespace Sys2Proof.Machine

/-- `Ascii(s)`: one byte a symbol, 0x30 for `'0'` and 0x31 for `'1'` (R110). -/
def ascii (s : BitString) : Bytes := s.map fun b => if b then 0x31#8 else 0x30#8

/-- `First5(d)`: the first five symbols of the digest (R112, R55). -/
def first5 (d : Digest) : BitVec 5 := ofBits 5 ((bytesToBits d.toList).take 5)

/-- `Chk(ent)`: the hash is over the 149 symbols as text, never over packed bits (R111, R113, R115). -/
def checksum (ent : BitVec 149) : BitVec 5 := first5 (sha256 (ascii (bitsOf ent)))

/-- `Verify(full)`: the stored checksum is the one of the first 149 symbols (R114). -/
def verify (full : BitVec 154) : Bool := checksum (entOf full) == chkOf full

end Sys2Proof.Machine
end

