-- ==== Sys2Proof/Machine/E2b.lean ====
section
/-! DEFINITION. Unit E2B, the entropy-to-bitstring converter (spec/40_entropy_to_bits.md). -/

namespace Sys2Proof.Machine

/-- `IsHexDigit(c)`: the character class `[0-9a-fA-F]` (R90). -/
def isHexDigit (c : Byte) : Bool :=
  (0x30#8 ≤ c && c ≤ 0x39#8) || (0x41#8 ≤ c && c ≤ 0x46#8) || (0x61#8 ≤ c && c ≤ 0x66#8)

/-- `HexVal(c)`; not defined on a byte that is no hex digit (R90), hence `none` there. -/
def hexVal (c : Byte) : Option Nat :=
  if 0x30#8 ≤ c ∧ c ≤ 0x39#8 then some (c.toNat - 0x30)
  else if 0x41#8 ≤ c ∧ c ≤ 0x46#8 then some (c.toNat - 0x41 + 10)
  else if 0x61#8 ≤ c ∧ c ≤ 0x66#8 then some (c.toNat - 0x61 + 10)
  else none

/-- `HexCheck(h)`: every byte is a hex digit and there are at least 39 of them (R91). -/
def hexCheck (h : Bytes) : Bool := h.all isHexDigit && Config.hexMin ≤ h.length

/-- The four symbols of one hex character (R54, R92); a byte that is no hex digit gives none and is never met after
`hexCheck` (log entry 11). -/
def hexSymbols (c : Byte) : BitString :=
  match hexVal c with
  | some v => bin 4 v
  | none => []

/-- `HexToBits(h)`: four symbols a character, in order; an unpaired last character is kept (R92). -/
def hexToBits (h : Bytes) : BitString := h.flatMap hexSymbols

/-- `Trunc149(s)`: the first 149 symbols (R96). -/
def trunc149 (s : BitString) : BitVec 149 := ofBits 149 (s.take 149)

/-- `RngEntropy()` for the draw `r`: the hash of the 32 raw bytes, as 256 symbols (R95). -/
def rngEntropy (r : Draw) : BitString := bytesToBits (sha256 r.toList).toList

/-- `E2B_Hex(h)`: raises `InvalidEntropy` when the text fails its check (R98). -/
def e2bHex (h : Bytes) : Except Kind (BitVec 149) :=
  if hexCheck h then .ok (trunc149 (hexToBits h)) else .error .invalidEntropy

/-- `E2B_Rng()` for the draw `r`; it cannot fail (R95, R98). -/
def e2bRng (r : Draw) : BitVec 149 := trunc149 (rngEntropy r)

end Sys2Proof.Machine
end

