-- ==== Sys2Proof/Machine/Flags.lean ====
section
/-! DEFINITION. The flags of `STATUS` (spec/10_state.md R29), the error codes (60_exceptions.md R180), and the six values `STATUS` takes (R187). -/

namespace Sys2Proof.Machine

/-- The bit of `STATUS` that holds a flag (R29). -/
def Flag.bit : Flag → Nat
  | .done => 0
  | .errf => 1
  | .ovf => 2
  | .ovm => 3
  | .valid => 4
  | .minv => 5

/-- The flag `f` of a `STATUS` value (R29). -/
def flagOf (f : Flag) (st : BitVec 8) : Bool := st.getLsbD f.bit

/-- The flag `f` of the machine (R29). -/
def State.flag (s : State) (f : Flag) : Bool := flagOf f s.status

/-- The six flags, each 0 unless it is set by name. -/
structure FlagSet where
  done : Bool := false
  errf : Bool := false
  ovf : Bool := false
  ovm : Bool := false
  valid : Bool := false
  minv : Bool := false
  deriving DecidableEq, Repr

/-- The `STATUS` byte of six flags; bits 7:6 are reserved and read as 0 (R29). -/
def FlagSet.pack (f : FlagSet) : BitVec 8 :=
  0b00#2 ++ BitVec.ofBool f.minv ++ BitVec.ofBool f.valid ++ BitVec.ofBool f.ovm ++ BitVec.ofBool f.ovf ++
    BitVec.ofBool f.errf ++ BitVec.ofBool f.done

/-- `STATUS` after a successful `ENCODE.*` (R142). -/
def statusEncoded : BitVec 8 := FlagSet.pack { done := true, ovf := true, ovm := true }

/-- `STATUS` after a successful `DECODE` (R151). -/
def statusDecoded : BitVec 8 := FlagSet.pack { done := true, ovf := true, valid := true }

/-- `STATUS` after a successful `VALIDATE` (R152). -/
def statusValidated : BitVec 8 := FlagSet.pack { done := true, valid := true }

/-- `STATUS` after a failed command; `minv` is set when the command is `VALIDATE` (R186, R188). -/
def statusFailed (minv : Bool) : BitVec 8 := FlagSet.pack { done := true, errf := true, minv := minv }

/-- `STATUS` after `CLEAR` and after reset (R161, R38). -/
def statusCleared : BitVec 8 := FlagSet.pack {}

/-- The code a failure kind is reported by in `ERR` (R180). -/
def Kind.code : Kind → BitVec 4
  | .invalidEntropy => 1#4
  | .invalidWordCount => 2#4
  | .unknownWord => 3#4
  | .checksumMismatch => 4#4
  | .internalChecksumMismatch => 5#4
  | .invalidInput => 6#4
  | .illegalCommand => 8#4

end Sys2Proof.Machine
end

