-- ==== Sys2Proof/Machine/Wmap.lean ====
section
/-! DEFINITION. Unit WMAP, the word-index mapper (spec/42_word_mapper.md). -/

namespace Sys2Proof.Machine

/-- `IdxToWord(i)`: a read of the Wordlist ROM (R121). -/
def idxToWord (wl : Wordlist) (i : Index) : Bytes := wl[i]

/-- `Join`: the words in order with one byte 0x20 between neighbours and nowhere else (R122). -/
def joinWords (ws : List Bytes) : Bytes := [0x20#8].intercalate ws

/-- The fourteen indices of a 154-bit string, word 0 first (R120). -/
def indicesOf (full : BitVec 154) : List Index := List.ofFn (slice11 full)

/-- `MapOut(full)` (R123). -/
def mapOut (wl : Wordlist) (full : BitVec 154) : Bytes := joinWords ((indicesOf full).map (idxToWord wl))

/-- `Split(b)`: every byte 0x20 separates, nothing else does, and a token may be empty (R124). -/
def splitWords (b : Bytes) : List Bytes := b.splitOn 0x20#8

/-- `WordCountOk(b)` (R125). -/
def wordCountOk (b : Bytes) : Bool := (splitWords b).length == Config.words

/-- `WordToIdx(t)`: an index whose entry equals the token byte for byte, or absent (R126). By W1 there is at most one;
the model takes the first, which is not observable (U12). -/
def wordToIdx (wl : Wordlist) (t : Bytes) : Option Index :=
  match wl.toList.findIdx? (fun w => decide (w = t)) with
  | some i => if h : i < 2048 then some ⟨i, h⟩ else none
  | none => none

/-- `IdxToBits(i)`: 11 symbols, zero-padded on the left (R128). -/
def idxToBits (i : Index) : BitString := bin 11 i.val

/-- The 154-bit string of fourteen indices, word 0 first (R129). -/
def fullOfIndices (is : List Index) : BitVec 154 := ofBits 154 (is.flatMap idxToBits)

/-- `MapIn(b)`: the word count is tested first, then all fourteen tokens are looked up (R129, R125, R127). -/
def mapIn (wl : Wordlist) (b : Bytes) : Except Kind (BitVec 154) :=
  if wordCountOk b then
    match (splitWords b).mapM (wordToIdx wl) with
    | some is => .ok (fullOfIndices is)
    | none => .error .unknownWord
  else .error .invalidWordCount

end Sys2Proof.Machine
end

