-- ==== Sys2Proof/Machine/Ops.lean ====
section
/-! DEFINITION. The named operations on the state: what a failing command leaves (spec/60_exceptions.md R186), what each success commits (R187),
and the cores the commands share (43_encode.md R142, 44_decode_validate.md R150). -/

namespace Sys2Proof.Machine

/-- Effect of `raise <Kind>`, the same for every command but for `MINV`, which a failing `VALIDATE` sets (R186, R188).
The inputs stay; both outputs are dropped. There is nothing to restore and no return from it (R193). -/
def State.raise (s : State) (minv : Bool) (k : Kind) : State :=
  { s with err := k.code, full := none, mno := none, status := statusFailed minv }

/-- The `commit` of a successful `ENCODE.*` (R142). -/
def State.commitEncode (s : State) (full : BitVec 154) (text : Bytes) : State :=
  { s with full := some full, mno := some text, err := 0#4, status := statusEncoded }

/-- The `commit` of a successful `DECODE` (R151). -/
def State.commitDecode (s : State) (full : BitVec 154) : State :=
  { s with full := some full, mno := none, err := 0#4, status := statusDecoded }

/-- The `commit` of a successful `VALIDATE` (R152). -/
def State.commitValidate (s : State) : State :=
  { s with full := none, mno := none, err := 0#4, status := statusValidated }

/-- The `commit` of `CLEAR`: every latch at its reset value (R161, R38). -/
def State.commitClear (s : State) : State :=
  { s with hex := [], mni := [], full := none, mno := none, err := 0#4, status := statusCleared }

/-- The self-check at the end of `EncodeCore` and what follows it: a string whose checksum does not verify is not
delivered but reported as `InternalChecksumMismatch` (R142, R143, R185). -/
def State.selfCheckAndCommit (s : State) (full : BitVec 154) (text : Bytes) : State :=
  if verify full then s.commitEncode full text else s.raise false .internalChecksumMismatch

/-- `EncodeCore(ent)` (R142). -/
def State.encodeCore (s : State) (ent : BitVec 149) : State :=
  let full : BitVec 154 := ent ++ checksum ent
  s.selfCheckAndCommit full (mapOut s.wl full)

/-- `DecodeCore(b)`: word count, then all lookups, then the checksum; the first failure is the one raised (R150, R191). -/
def decodeCore (wl : Wordlist) (b : Bytes) : Except Kind (BitVec 154) :=
  match mapIn wl b with
  | .ok full => if verify full then .ok full else .error .checksumMismatch
  | .error k => .error k

end Sys2Proof.Machine
end

