-- ==== Sys2Proof/Machine/Encode.lean ====
section
/-! DEFINITION. The commands `ENCODE.RNG` and `ENCODE.HEX` (spec/43_encode.md R140, R141). -/

namespace Sys2Proof.Machine

/-- `ENCODE.RNG` (R140): `HEX` is not looked at (R73). -/
def execEncodeRng (s : State) : Host.Outcome State Fault Refusal :=
  .next (s.takeDraw.2.encodeCore (e2bRng s.takeDraw.1))

/-- `ENCODE.HEX` (R141): a text that fails its check ends the command before anything else is computed. -/
def execEncodeHex (s : State) : Host.Outcome State Fault Refusal :=
  .next (match e2bHex s.hex with
    | .ok ent => s.encodeCore ent
    | .error k => s.raise false k)

end Sys2Proof.Machine
end

