-- ==== Sys2Proof/Machine/Phrase.lean ====
section
/-! DEFINITION. The commands `DECODE` and `VALIDATE` (spec/44_decode_validate.md R151, R152). -/

namespace Sys2Proof.Machine

/-- `DECODE` (R151). -/
def execDecode (s : State) : Host.Outcome State Fault Refusal :=
  .next (match decodeCore s.wl s.mni with
    | .ok full => s.commitDecode full
    | .error k => s.raise false k)

/-- `VALIDATE` (R152): the decoded value is dropped; a failure sets `MINV` and reports the specific kind (R188). -/
def execValidate (s : State) : Host.Outcome State Fault Refusal :=
  .next (match decodeCore s.wl s.mni with
    | .ok _ => s.commitValidate
    | .error k => s.raise true k)

end Sys2Proof.Machine
end

