-- ==== Sys2Proof/Machine/System.lean ====
section
/-! DEFINITION. The commands `NOP` and `CLEAR`, and the reserved bytes (spec/45_system.md R160 to R162). -/

namespace Sys2Proof.Machine

/-- `NOP` (R160): it changes nothing. -/
def execNop (s : State) : Host.Outcome State Fault Refusal := .next s

/-- `CLEAR` (R161). -/
def execClear (s : State) : Host.Outcome State Fault Refusal := .next s.commitClear

/-- A reserved byte (R162, R190): it raises `IllegalCommand`, whichever reserved byte it is; the byte is not recorded. -/
def execReserved (_c : Byte) (s : State) : Host.Outcome State Fault Refusal := .next (s.raise false .illegalCommand)

end Sys2Proof.Machine
end

