-- ==== Sys2Proof/Machine/Dispatch.lean ====
section
/-! DEFINITION. One arm per command of the opcode table, each one call of its meaning. -/

namespace Sys2Proof.Machine

def exec (i : Instr) (s : State) : Host.Outcome State Fault Refusal :=
  match i with
  | .nop => Sys2Proof.Machine.execNop s
  | .encodeRng => Sys2Proof.Machine.execEncodeRng s
  | .encodeHex => Sys2Proof.Machine.execEncodeHex s
  | .decode => Sys2Proof.Machine.execDecode s
  | .validate => Sys2Proof.Machine.execValidate s
  | .clear => Sys2Proof.Machine.execClear s
  | .reserved c => Sys2Proof.Machine.execReserved c s

end Sys2Proof.Machine
end

