-- ==== Sys2Proof/Machine/Bus.lean ====
section
/-! DEFINITION. The host's actions on the block (spec/10_state.md R22 to R24, R32, R39; 20_memory.md R59, R60, R62; 70_reset_and_hazards.md R200,
R204) and the host's own branch (30_encoding.md R78). -/

namespace Sys2Proof.Machine

/-- What a register the host may not write reads as: `none` for an output or a view that holds no value (R22). -/
def State.readOut (s : State) : OutReg → Option ReadValue
  | .status => some (.bits 8 s.status)
  | .err => some (.bits 4 s.err)
  | .full => s.full.map (.bits 154)
  | .ent => s.ent.map (.bits 149)
  | .chk => s.chk.map (.bits 5)
  | .idx k => (s.idx k).map fun i => .bits 11 (BitVec.ofNat 11 i.val)
  | .saltv => s.saltv.map (.bits 77)
  | .seedv => s.seedv.map (.bits 77)
  | .mno => s.mno.map .bytes

/-- What a host read returns (R39): `CMD` has no storage and reads as 0x00 (R32). -/
def State.readReg (s : State) : HostReg → Option ReadValue
  | .cmd => some (.bits 8 0x00#8)
  | .hex => some (.bytes s.hex)
  | .mni => some (.bytes s.mni)
  | .out r => s.readOut r

/-- `LoadHex(b)`, defined only for a string that fits (R23). -/
def loadHex (b : Bytes) (s : State) : Host.Outcome State Fault Refusal :=
  if b.length ≤ Config.hexMax then .next { s with hex := b } else .refused .hexTooLong

/-- `LoadMnemonic(b)`, defined only for a string that fits (R24). -/
def loadMnemonic (b : Bytes) (s : State) : Host.Outcome State Fault Refusal :=
  if b.length ≤ Config.phraseMax then .next { s with mni := b } else .refused .phraseTooLong

/-- A host read: the block does not change (R60), the host has its answer; a read of an output that holds no value is
refused (R22, R204). -/
def hostRead (r : HostReg) (s : State) : Host.Outcome State Fault Refusal :=
  match s.readReg r with
  | some v => .next { s with reads := ⟨r, v⟩ :: s.reads }
  | none => .refused (.noValue r)

/-- The reset event: every latch at its reset value; the Wordlist ROM (R200) and what is outside the block stay. -/
def State.resetBlock (s : State) : State :=
  { State.reset with
    wl := s.wl, rngPort := s.rngPort, rngCount := s.rngCount, pending := s.pending, issued := s.issued, reads := s.reads }

/-- The `STATUS` value of an answer, if it is one of a read of `STATUS`. -/
def Reading.statusValue (r : Reading) : Option (BitVec 8) :=
  match r.reg, r.value with
  | .out .status, .bits _ v => some (v.setWidth 8)
  | _, _ => none

/-- The last `STATUS` the host has read (R78). -/
def State.lastStatus (s : State) : Option (BitVec 8) := s.reads.findSome? Reading.statusValue

/-- The actions of a program up to and with a label, latest first, and the ones after it. -/
def splitAtLabel (l : Nat) : List Action → List Action → Option (List Action × List Action)
  | _, [] => none
  | before, a :: rest => if a = .label l then some (a :: before, rest) else splitAtLabel l (a :: before) rest

/-- `GOTO <label>`: the host goes on after the label, wherever in its program it stands (R78). -/
def hostGoto (l : Nat) (s : State) : Host.Outcome State Fault Refusal :=
  match splitAtLabel l [] (s.issued.reverse ++ s.pending) with
  | some (before, rest) => .next { s with issued := before, pending := rest }
  | none => .refused (.badBranch l)

/-- `IF <flag> GOTO <label>` on the last `STATUS` read (R78); log entry 9. -/
def hostIf (f : Flag) (l : Nat) (s : State) : Host.Outcome State Fault Refusal :=
  match s.lastStatus with
  | some st => if flagOf f st then hostGoto l s else .next s
  | none => .refused (.badBranch l)

/-- One action on the block. A write of `CMD` runs the command its byte encodes to completion (R32, R59, R70); a reset in
the middle of a command leaves the reset state, as if the command had never been written (R200). -/
def act (a : Action) (s : State) : Host.Outcome State Fault Refusal :=
  match a with
  | .loadHex b => loadHex b s
  | .loadMnemonic b => loadMnemonic b s
  | .writeCmd c => exec (decodeByte c) s
  | .read r => hostRead r s
  | .write _ => .next s
  | .reset => .next s.resetBlock
  | .resetDuring _ => .next s.resetBlock
  | .label _ => .next s
  | .ifGoto f l => hostIf f l s

/-- The state once the host has issued its next action `a`, with `rest` still to come. -/
def State.issue (s : State) (a : Action) (rest : List Action) : State :=
  { s with pending := rest, issued := a :: s.issued }

/-- The next action of the host takes effect, completely (R62); while there is none the block keeps its state. -/
def hostStep (s : State) : Host.Outcome State Fault Refusal :=
  match s.pending with
  | [] => .next s
  | a :: rest => act a (s.issue a rest)

/-- `s` with a write of the byte `c` to `CMD` as the host's next action. -/
def State.withCommand (s : State) (c : Byte) : State := { s with pending := .writeCmd c :: s.pending }

end Sys2Proof.Machine
end

