-- ==== Sys2Proof/Machine/Step.lean ====
section
/-! DEFINITION. One step: the host's next action takes effect (spec/10_state.md R36, 20_memory.md R62). -/

namespace Sys2Proof.Machine

/-- One step of the machine. -/
def step (s : State) : Host.Outcome State Fault Refusal := hostStep s

/-- `s` with the command whose table bits are `w` as what the next step runs: the host's next action writes its byte to
`CMD`. -/
def State.withFetchWord (s : State) (nbits w : Nat) : State := s.withCommand (tableByte nbits w)

end Sys2Proof.Machine
end

