-- ==== Sys2Proof/Safety.lean ====
section
/-! DEFINITION. What holds in every reachable state (spec/10_state.md R40, with the capacities of R23 and R24), how a phrase restores
its string (44_decode_validate.md R153), and how states are compared in
claims. -/

namespace Sys2Proof

open Sys2Proof.Machine

/-- The invariants of R40, (a) to (j), and that the input buffers fit (R23, R24). -/
structure StateInv (s : State) : Prop where
  /-- `HEX` fits its buffer (R23). -/
  hexFits : s.hex.length ≤ Config.hexMax
  /-- `MNI` fits its buffer (R24). -/
  mniFits : s.mni.length ≤ Config.phraseMax
  /-- (a) `OVM = 1` implies `OVF = 1`. -/
  ovmThenOvf : s.flag .ovm = true → s.flag .ovf = true
  /-- (b) `OVF = 1` exactly when `FULL` holds a value. -/
  ovfTells : s.flag .ovf = s.full.isSome
  /-- (b) `OVM = 1` exactly when `MNO` holds a value. -/
  ovmTells : s.flag .ovm = s.mno.isSome
  /-- (c) `ERRF = 1` exactly when `ERR ≠ 0`. -/
  errfTells : s.flag .errf = true ↔ s.err ≠ 0#4
  /-- (d) `ERRF = 1` implies `OVF = OVM = VALID = 0`. -/
  errfAlone : s.flag .errf = true → s.flag .ovf = false ∧ s.flag .ovm = false ∧ s.flag .valid = false
  /-- (e) `MINV = 1` implies `ERRF = 1`. -/
  minvThenErrf : s.flag .minv = true → s.flag .errf = true
  /-- (f) `VALID = 1` implies `OVM = 0`. -/
  validThenNoOvm : s.flag .valid = true → s.flag .ovm = false
  /-- (g) when `FULL` holds a value its checksum verifies (R25). -/
  fullVerifies : ∀ f, s.full = some f → verify f = true
  /-- (h) when `MNO` holds a value it is the join of the words of `IDX[0..13]` (R28). -/
  mnoIsPhrase : ∀ m, s.mno = some m → ∃ f, s.full = some f ∧ m = mapOut s.wl f
  /-- (i) `STATUS[7:6] = 0`. -/
  reservedZero : s.status.extractLsb' 6 2 = 0b00#2
  /-- (j) `ERR ∈ {0, 1, 2, 3, 4, 5, 8}`. -/
  errKnown : s.err ∈ [0#4, 1#4, 2#4, 3#4, 4#4, 5#4, 8#4]

/-- What a command works on (R33): the two input buffers, the ROM and the random source. -/
def SameInputs (s t : State) : Prop :=
  s.hex = t.hex ∧ s.mni = t.mni ∧ s.wl = t.wl ∧ s.rngPort = t.rngPort ∧ s.rngCount = t.rngCount

/-- What a command reports and delivers: `STATUS`, `ERR`, `FULL`, `MNO`. -/
def SameOutputs (s t : State) : Prop :=
  s.status = t.status ∧ s.err = t.err ∧ s.full = t.full ∧ s.mno = t.mno

/-- The latches of the block (R21): everything a reset puts back. -/
def SameBlock (s t : State) : Prop := SameOutputs s t ∧ s.hex = t.hex ∧ s.mni = t.mni

/-- The phrase `m` brings back the string `full` and its entropy `ent`: in every state with the Wordlist `wl`, whatever the
outputs and buffers hold, `m` can be loaded, and then `DECODE` succeeds with them and `VALIDATE` succeeds (R153). -/
def PhraseRestores (wl : Wordlist) (m : Bytes) (full : BitVec 154) (ent : BitVec 149) : Prop :=
  ∀ s : State, s.wl = wl → ∃ u v w : State, loadMnemonic m s = .next u ∧
    (exec .decode u = .next v ∧ v.status = 0x15#8 ∧ v.err = 0#4 ∧ v.full = some full ∧ v.ent = some ent) ∧
    exec .validate u = .next w ∧ w.status = 0x11#8 ∧ w.err = 0#4 ∧ w.flag .valid = true

/-- What is not a latch of the block: the ROM, the random source, and the host's program and log. -/
def SameOutside (s t : State) : Prop :=
  s.wl = t.wl ∧ s.rngPort = t.rngPort ∧ s.rngCount = t.rngCount ∧ s.pending = t.pending ∧ s.issued = t.issued ∧
    s.reads = t.reads

end Sys2Proof
end

