-- ==== Sys2Proof/Certificates/Slice0/Obligations.lean ====
section
/-! DEFINITION. The statements for the provers, each with the rules of spec/ it formalises. -/

open Sys2Proof Sys2Proof.Machine Sys2Proof.Config

/-! ### Encoding -/

/-- R72: the complete map of command bytes; every byte outside it is reserved (R74) and decodes as such. -/
def Obligations.OpcodeMapComplete : Prop :=
  decodeByte 0x00#8 = .nop ∧ decodeByte 0x01#8 = .encodeRng ∧ decodeByte 0x09#8 = .encodeHex ∧
  decodeByte 0x02#8 = .decode ∧ decodeByte 0x03#8 = .validate ∧ decodeByte 0x04#8 = .clear ∧
  ∀ c : Byte, c ∉ [0x00#8, 0x01#8, 0x09#8, 0x02#8, 0x03#8, 0x04#8] → isReserved c = true ∧ decodeByte c = .reserved c

/-- Decode and encode agree on every well-formed command, and every byte is the encoding of what it decodes to (from
R70, R72, R74, R80). -/
def Obligations.DecodeEncodeAgree : Prop :=
  (∀ (i : Instr) (rest : Bytes), i.wf = true → decodeBytes (encode i :: rest) = some (i, rest)) ∧
  ∀ c : Byte, (decodeByte c).wf = true ∧ encode (decodeByte c) = c

/-- A step is the host's next action, whichever it is, on the state in which that action has been issued (R62); a write
of `CMD` runs the command its byte decodes to (R32, R70), and so does a word placed by `withFetchWord`. That the actions
are a list, and that a step with none pending leaves the state as it is, are the model's choices (log entries 6 and 18). -/
def Obligations.StepRunsDecodedCommand : Prop :=
  (∀ s : State, s.pending = [] → step s = .next s) ∧
  (∀ (s : State) (a : Action) (rest : List Action), s.pending = a :: rest →
    step s = act a { s with pending := rest, issued := a :: s.issued }) ∧
  (∀ (s : State) (c : Byte) (rest : List Action), s.pending = .writeCmd c :: rest →
    step s = exec (decodeByte c) { s with pending := rest, issued := .writeCmd c :: s.issued }) ∧
  ∀ (s : State) (w : Nat), w < 256 →
    step (s.withFetchWord 8 w) =
      exec (decodeByte (BitVec.ofNat 8 w)) { s with issued := .writeCmd (BitVec.ofNat 8 w) :: s.issued }

/-! ### The system commands -/

/-- R160: `NOP` changes nothing. -/
def Obligations.NopChangesNothing : Prop :=
  decodeByte 0x00#8 = .nop ∧ ∀ s : State, exec .nop s = .next s

/-- `CLEAR` puts every latch at its reset value, in every state, and leaves the rest alone (R161 but for what the
storage physically holds; log entry 15). -/
def Obligations.ClearEmptiesEveryLatch : Prop :=
  ∀ s : State, exec .clear s =
    .next { s with hex := [], mni := [], full := none, mno := none, err := 0#4, status := 0x00#8 }

/-- A reset, also in the middle of a command, leaves every latch at its reset value and everything outside the block
alone; and after `CLEAR` the block cannot be told from one that has just been reset (R200, R161). -/
def Obligations.ClearIsReset : Prop :=
  ∀ s : State, exec .clear s = act .reset s ∧ (∀ c : Byte, act (.resetDuring c) s = act .reset s) ∧
    ∃ t : State, act .reset s = .next t ∧ SameBlock t State.reset ∧ SameOutside t s

/-- R162: every reserved byte fails with `IllegalCommand`, whichever it is. -/
def Obligations.ReservedByteFails : Prop :=
  ∀ (c : Byte) (s : State), isReserved c = true →
    decodeByte c = .reserved c ∧
    exec (.reserved c) s = .next { s with err := 8#4, status := 0x03#8, full := none, mno := none }

/-! ### Encoding entropy -/

/-- `ENCODE.HEX` on a text of at least 39 hex characters delivers the 149 bits of the text with their checksum, and the
phrase of the two, and changes nothing else (43_encode.md, `ENCODE.HEX` and `EncodeCore`). -/
def Obligations.EncodeHexDelivers : Prop :=
  ∀ s : State, 39 ≤ s.hex.length → (∀ c ∈ s.hex, isHexDigit c = true) →
    exec .encodeHex s = .next { s with
      full := some (trunc149 (hexToBits s.hex) ++ checksum (trunc149 (hexToBits s.hex)))
      mno := some (mapOut s.wl (trunc149 (hexToBits s.hex) ++ checksum (trunc149 (hexToBits s.hex))))
      err := 0#4, status := 0x0D#8 }

/-- `ENCODE.HEX` on any other text fails with `InvalidEntropy`, keeps its inputs and drops the outputs (R181, R186). -/
def Obligations.EncodeHexRejects : Prop :=
  ∀ s : State, (s.hex.length < 39 ∨ ∃ c ∈ s.hex, isHexDigit c = false) →
    exec .encodeHex s = .next { s with status := 0x03#8, err := 1#4, full := none, mno := none }

/-- `ENCODE.RNG` delivers for every draw, whether a test bench put it at the port or the source answers it, whatever `HEX`
holds (43_encode.md, `ENCODE.RNG`). The source's answer is the free value `rngDraw s.rngCount`; it, the port and the
counter are the model's form of the draw (log entry 4). -/
def Obligations.EncodeRngDelivers : Prop :=
  (∀ (s : State) (r : Draw), exec .encodeRng { s with rngPort := r :: s.rngPort } = .next { s with
      full := some (trunc149 (bytesToBits (sha256 r.toList).toList) ++ checksum (trunc149 (bytesToBits (sha256 r.toList).toList)))
      mno := some (mapOut s.wl (trunc149 (bytesToBits (sha256 r.toList).toList) ++
        checksum (trunc149 (bytesToBits (sha256 r.toList).toList))))
      err := 0#4, status := 0x0D#8 }) ∧
  ∀ s : State, s.rngPort = [] → exec .encodeRng s = .next { s with
      full := some (trunc149 (bytesToBits (sha256 (rngDraw s.rngCount).toList).toList) ++
        checksum (trunc149 (bytesToBits (sha256 (rngDraw s.rngCount).toList).toList)))
      mno := some (mapOut s.wl (trunc149 (bytesToBits (sha256 (rngDraw s.rngCount).toList).toList) ++
        checksum (trunc149 (bytesToBits (sha256 (rngDraw s.rngCount).toList).toList))))
      err := 0#4, status := 0x0D#8, rngCount := s.rngCount + 1 }

/-- No command ends with `InternalChecksumMismatch`, from any state that does not report it already (R143: the model's
hash unit is a function). -/
def Obligations.SelfCheckNeverFails : Prop :=
  ∀ (i : Instr) (s : State), ∃ t : State, exec i s = .next t ∧ (t.err = 5#4 → i = .nop ∧ s.err = 5#4)

/-! ### Decoding phrases -/

/-- `DECODE` of the phrase of a string that verifies delivers that string (44_decode_validate.md, `DECODE`). -/
def Obligations.DecodeDelivers : Prop :=
  ∀ (s : State) (full : BitVec 154), WordlistOk s.wl → s.mni = mapOut s.wl full → verify full = true →
    exec .decode s = .next { s with full := some full, mno := none, err := 0#4, status := 0x15#8 }

/-- `VALIDATE` of such a phrase says that it is valid and delivers no bits (44_decode_validate.md, `VALIDATE`). -/
def Obligations.ValidateDelivers : Prop :=
  ∀ (s : State) (full : BitVec 154), WordlistOk s.wl → s.mni = mapOut s.wl full → verify full = true →
    exec .validate s = .next { s with full := none, mno := none, err := 0#4, status := 0x11#8 }

/-- Every outcome of `DECODE`, each exactly where it applies: the three failures in their fixed priority, word count, then
unknown word, then checksum, and otherwise success (R150, R151, R182, R183, R184, R191). -/
def Obligations.DecodeOutcomes : Prop :=
  ∀ s : State,
    if s.mni.count 0x20#8 ≠ 13 then
      exec .decode s = .next { s with status := 0x03#8, err := 2#4, full := none, mno := none }
    else if ∃ t ∈ splitWords s.mni, t ∉ s.wl.toList then
      exec .decode s = .next { s with status := 0x03#8, err := 3#4, full := none, mno := none }
    else ∃ full : BitVec 154, mapOut s.wl full = s.mni ∧
      exec .decode s = if checksum (sub full 0 149) = sub full 149 5 then
          .next { s with full := some full, mno := none, err := 0#4, status := 0x15#8 }
        else .next { s with status := 0x03#8, err := 4#4, full := none, mno := none }

/-- Every outcome of `VALIDATE`: the failures of `DECODE` with the same kind in `ERR` and `MINV` set, and otherwise
success with no bits delivered (R150, R152, R188, R191). -/
def Obligations.ValidateOutcomes : Prop :=
  ∀ s : State,
    if s.mni.count 0x20#8 ≠ 13 then
      exec .validate s = .next { s with status := 0x23#8, err := 2#4, full := none, mno := none }
    else if ∃ t ∈ splitWords s.mni, t ∉ s.wl.toList then
      exec .validate s = .next { s with status := 0x23#8, err := 3#4, full := none, mno := none }
    else ∃ full : BitVec 154, mapOut s.wl full = s.mni ∧
      exec .validate s = if checksum (sub full 0 149) = sub full 149 5 then
          .next { s with full := none, mno := none, err := 0#4, status := 0x11#8 }
        else .next { s with status := 0x23#8, err := 4#4, full := none, mno := none }

/-- `VALIDATE` and `DECODE` on the same `MNI` always agree, success or kind of failure; only `VALIDATE` sets `MINV`, and
exactly when it fails (44_decode_validate.md, `VALIDATE`; 60_exceptions.md, `MnemonicInvalid`). -/
def Obligations.ValidateAgreesWithDecode : Prop :=
  ∀ s : State, ∃ t u : State, exec .decode s = .next t ∧ exec .validate s = .next u ∧
    t.err = u.err ∧ t.flag .valid = u.flag .valid ∧ t.flag .errf = u.flag .errf ∧
    t.flag .minv = false ∧ u.flag .minv = u.flag .errf ∧ u.flag .valid = !u.flag .errf ∧
    u.full = none ∧ u.mno = none

/-- `DECODE` accepts exactly the phrases that `ENCODE` can produce: the joins of the words of a 154-bit string whose
checksum verifies; and what it then leaves in `FULL` is such a string (42_word_mapper.md, 44_decode_validate.md). -/
def Obligations.DecodeAcceptsExactlyPhrases : Prop :=
  ∀ s : State, WordlistOk s.wl → ∃ t : State, exec .decode s = .next t ∧
    (t.flag .valid = true ↔ ∃ full : BitVec 154, verify full = true ∧ s.mni = mapOut s.wl full) ∧
    ∀ full : BitVec 154, t.full = some full → verify full = true ∧ s.mni = mapOut s.wl full

/-- R153: the round trip, from supplied entropy and from every draw. `DECODE` and `VALIDATE` succeed on the phrase, whether
it is loaded right after the encode command or into any other state with the same Wordlist, whose `FULL` may hold anything. -/
def Obligations.RoundTrip : Prop :=
  ∀ s : State, WordlistOk s.wl →
    (hexCheck s.hex = true → ∃ (t : State) (m : Bytes) (f : BitVec 154),
      exec .encodeHex s = .next t ∧ t.status = 0x0D#8 ∧ t.err = 0#4 ∧ t.mno = some m ∧ t.full = some f ∧ t.wl = s.wl ∧
      PhraseRestores s.wl m f (trunc149 (hexToBits s.hex))) ∧
    ∀ r : Draw, ∃ (t : State) (m : Bytes) (f : BitVec 154),
      exec .encodeRng { s with rngPort := r :: s.rngPort } = .next t ∧ t.status = 0x0D#8 ∧ t.err = 0#4 ∧
      t.mno = some m ∧ t.full = some f ∧ t.wl = s.wl ∧ PhraseRestores s.wl m f (e2bRng r)

/-! ### All commands -/

/-- The table of every outcome (60_exceptions.md §3). The table's row for `InternalChecksumMismatch` is the last clause, on
the self-check: that no command takes that row is an inference of the model's, since its hash is a function (43_encode.md;
log entry 14). -/
def Obligations.OutcomeTable : Prop :=
  (∀ (i : Instr) (s : State), ∃ t : State, exec i s = .next t ∧
    match i with
    | .nop => t = s
    | .encodeRng =>
      t.status = 0x0D#8 ∧ t.err = 0#4 ∧ t.full.isSome ∧ t.mno.isSome ∧ t.hex = s.hex ∧ t.mni = s.mni
    | .encodeHex =>
      (t.status = 0x0D#8 ∧ t.err = 0#4 ∧ t.full.isSome ∧ t.mno.isSome ∨
        t.status = 0x03#8 ∧ t.err = 1#4 ∧ t.full = none ∧ t.mno = none) ∧ t.hex = s.hex ∧ t.mni = s.mni
    | .decode =>
      (t.status = 0x15#8 ∧ t.err = 0#4 ∧ t.full.isSome ∧ t.mno = none ∨
        t.status = 0x03#8 ∧ t.err ∈ [2#4, 3#4, 4#4] ∧ t.full = none ∧ t.mno = none) ∧ t.hex = s.hex ∧ t.mni = s.mni
    | .validate =>
      (t.status = 0x11#8 ∧ t.err = 0#4 ∨ t.status = 0x23#8 ∧ t.err ∈ [2#4, 3#4, 4#4]) ∧
        t.full = none ∧ t.mno = none ∧ t.hex = s.hex ∧ t.mni = s.mni
    | .clear => t.status = 0x00#8 ∧ t.err = 0#4 ∧ t.full = none ∧ t.mno = none ∧ t.hex = [] ∧ t.mni = []
    | .reserved _ =>
      t.status = 0x03#8 ∧ t.err = 8#4 ∧ t.full = none ∧ t.mno = none ∧ t.hex = s.hex ∧ t.mni = s.mni) ∧
  ∀ (s : State) (full : BitVec 154) (text : Bytes), verify full = false →
    s.selfCheckAndCommit full text = { s with status := 0x03#8, err := 5#4, full := none, mno := none }

/-- The frame of every command: only `CLEAR` writes an input buffer, only `ENCODE.RNG` spends a draw, and none touches
the ROM, the host's program or the host's log (R23, R24, R66, R75). -/
def Obligations.CommandFrame : Prop :=
  ∀ (i : Instr) (s t : State), exec i s = .next t →
    t.wl = s.wl ∧ t.pending = s.pending ∧ t.issued = s.issued ∧ t.reads = s.reads ∧
    (i ≠ .clear → t.hex = s.hex ∧ t.mni = s.mni) ∧
    (i ≠ .encodeRng → t.rngPort = s.rngPort ∧ t.rngCount = s.rngCount)

/-- R33: no command reads a flag or an earlier result. `NOP` leaves everything as it was. Any other command leaves exactly
the same state from two states that differ in `STATUS`, `ERR`, `FULL` and `MNO` alone. What it reports and delivers depends
only on its opcode, on `HEX` or `MNI`, on the Wordlist and, for `ENCODE.RNG`, on the draw; what becomes of `HEX` and `MNI`
depends on the opcode only: `CLEAR` empties both, every other command keeps both. -/
def Obligations.NoCommandReadsHistory : Prop :=
  (∀ s : State, exec .nop s = .next s) ∧
  (∀ (i : Instr) (s s' : State), i ≠ .nop → SameInputs s s' → SameOutside s s' → exec i s = exec i s') ∧
  ∀ (i : Instr) (s s' : State),
    (match i with
      | .nop => False
      | .encodeRng => s.wl = s'.wl ∧ s.takeDraw.1 = s'.takeDraw.1
      | .encodeHex => s.wl = s'.wl ∧ s.hex = s'.hex
      | .decode => s.wl = s'.wl ∧ s.mni = s'.mni
      | .validate => s.wl = s'.wl ∧ s.mni = s'.mni
      | .clear => True
      | .reserved _ => True) →
    ∃ t t' : State, exec i s = .next t ∧ exec i s' = .next t' ∧ SameOutputs t t' ∧
      if i = .clear then t.hex = [] ∧ t.mni = [] ∧ t'.hex = [] ∧ t'.mni = []
      else t.hex = s.hex ∧ t.mni = s.mni ∧ t'.hex = s'.hex ∧ t'.mni = s'.mni

/-- Every command but `ENCODE.RNG`, repeated with the same inputs, gives the same state (20_memory.md §4). -/
def Obligations.RepeatedCommandSameState : Prop :=
  ∀ (i : Instr) (s : State), i ≠ .encodeRng →
    ∃ t : State, exec i s = .next t ∧ exec i t = .next t

/-- `ERR` is only ever given 0, 1, 2, 3, 4 or 8. The table of 60_exceptions.md §1 excludes 6 (R189), 7 and 9 to 15. It lists
5 as raised by `ENCODE.*`: that no command of the model writes 5 is the inference that R143 of 43_encode.md allows where
the hash is a function, and the model's own (DEDUCED, log entry 14). -/
def Obligations.OnlyKnownCodesWritten : Prop :=
  ∀ (i : Instr) (s : State), i ≠ .nop →
    ∃ t : State, exec i s = .next t ∧ t.err ∈ [0#4, 1#4, 2#4, 3#4, 4#4, 8#4] ∧
      (t.err = 0#4 ↔ t.flag .errf = false) ∧ (t.flag .minv = true → i = .validate)

/-- R29: the bits of `STATUS` are where the table puts them, bits 7:6 are 0, and the values of `STATUS` are those of the
outcome table (R187). -/
def Obligations.StatusBits : Prop :=
  (∀ f : FlagSet, f.pack.toNat = f.done.toNat + 2 * f.errf.toNat + 4 * f.ovf.toNat + 8 * f.ovm.toNat +
      16 * f.valid.toNat + 32 * f.minv.toNat ∧
    flagOf .done f.pack = f.done ∧ flagOf .errf f.pack = f.errf ∧ flagOf .ovf f.pack = f.ovf ∧
    flagOf .ovm f.pack = f.ovm ∧ flagOf .valid f.pack = f.valid ∧ flagOf .minv f.pack = f.minv) ∧
  statusEncoded = 0x0D#8 ∧ statusDecoded = 0x15#8 ∧ statusValidated = 0x11#8 ∧ statusFailed false = 0x03#8 ∧
  statusFailed true = 0x23#8 ∧ statusCleared = 0x00#8

/-! ### Invariants -/

/-- R38: every latch has its reset value in the state after reset, and a reset event puts it there and leaves `WL` as it
is. -/
def Obligations.ResetValues : Prop :=
  State.reset.status = 0x00#8 ∧ State.reset.err = 0#4 ∧ State.reset.hex = [] ∧ State.reset.mni = [] ∧
  State.reset.full = none ∧ State.reset.mno = none ∧ State.reset.ent = none ∧ State.reset.chk = none ∧
  (∀ k, State.reset.idx k = none) ∧ State.reset.saltv = none ∧ State.reset.seedv = none ∧
  ∀ s : State, ∃ t : State, act .reset s = .next t ∧ t.status = 0x00#8 ∧ t.err = 0#4 ∧ t.hex = [] ∧ t.mni = [] ∧
    t.full = none ∧ t.mno = none ∧ t.wl = s.wl

/-- The reset state meets the invariants of R40. -/
def Obligations.ResetMeetsInv : Prop := StateInv State.reset

/-- Every step, whatever the host does, keeps the invariants of R40, in every state that meets them. -/
def Obligations.EveryStepKeepsInv : Prop :=
  ∀ s t : State, StateInv s → step s = .next t → StateInv t

/-- The invariants of R40, and the capacities of the input buffers (R23, R24, at the defaults of R8, which are the model's
choice: log entry 10), hold in every state reachable from a reset, with any host program, any Wordlist and any draws. -/
def Obligations.ReachableStatesMeetInv : Prop :=
  ∀ (s t : State) (k : Nat), SameBlock s State.reset → Host.Core.run core k s = .next t → StateInv t

/-- R66: no command and no host action changes the Wordlist. -/
def Obligations.WordlistImmutable : Prop :=
  ∀ (s t : State) (k : Nat), Host.Core.run core k s = .next t → t.wl = s.wl

/-- When `MNO` holds a value it has 27 to `14 × WORD_MAX + 13` bytes, so it fits `PHRASE_MAX` (10_state.md §4, from R31's
W1 to W3). -/
def Obligations.PhraseLengthBounds : Prop :=
  ∀ (s : State) (m : Bytes), StateInv s → WordlistOk s.wl → s.mno = some m → 27 ≤ m.length ∧ m.length ≤ 125

/-! ### Host actions and reset -/

/-- The loads: a string that fits is taken whole and nothing else changes, no flag and no output included; a longer one
is refused (R23, R24, R205; U4). -/
def Obligations.LoadsTakeWholeStrings : Prop :=
  ∀ (s : State) (b : Bytes),
    act (.loadHex b) s = (if b.length ≤ 64 then .next { s with hex := b } else .refused .hexTooLong) ∧
    act (.loadMnemonic b) s = (if b.length ≤ 255 then .next { s with mni := b } else .refused .phraseTooLong)

/-- A read answers the register's value and changes nothing in the block; `CMD` reads as 0x00, and each view reads as the
view of `FULL`; a read is refused exactly when the output read holds no value (the refusal and the host's log are the
model's form, log entry 7); a write to a register the host may not write is ignored (R22, R26, R27, R32, R39, R60, R170,
R171). -/
def Obligations.HostReadsAndWrites : Prop :=
  ∀ s : State,
    (∀ r : HostReg,
      if r = .out .mno ∧ s.mno = none ∨
          s.full = none ∧ (r ∈ [.out .full, .out .ent, .out .chk, .out .saltv, .out .seedv] ∨ ∃ k, r = .out (.idx k)) then
        s.readReg r = none ∧ act (.read r) s = .refused (.noValue r)
      else ∃ v, s.readReg r = some v ∧ act (.read r) s = .next { s with reads := ⟨r, v⟩ :: s.reads }) ∧
    s.readReg .cmd = some (.bits 8 0x00#8) ∧ s.readReg .hex = some (.bytes s.hex) ∧ s.readReg .mni = some (.bytes s.mni) ∧
    (∀ r : OutReg, s.readReg (.out r) = s.readOut r) ∧
    s.readOut .status = some (.bits 8 s.status) ∧ s.readOut .err = some (.bits 4 s.err) ∧
    s.readOut .full = s.full.map (.bits 154) ∧ s.readOut .mno = s.mno.map .bytes ∧
    s.readOut .ent = s.ent.map (.bits 149) ∧ s.readOut .chk = s.chk.map (.bits 5) ∧
    (∀ k, s.readOut (.idx k) = (s.idx k).map fun i => .bits 11 (BitVec.ofNat 11 i.val)) ∧
    s.readOut .saltv = s.saltv.map (.bits 77) ∧ s.readOut .seedv = s.seedv.map (.bits 77) ∧
    ∀ r : OutReg, act (.write r) s = .next s

/-- In a state that meets the invariants, an output may be read exactly while its flag is 1: `OVF` for `FULL` and its
views, `OVM` for `MNO` (70_reset_and_hazards.md §3, first hazard). -/
def Obligations.ReadableUnderFlag : Prop :=
  ∀ s : State, StateInv s →
    (∀ r ∈ [OutReg.full, .ent, .chk, .saltv, .seedv], (∃ t, act (.read (.out r)) s = .next t) ↔ s.flag .ovf = true) ∧
    (∀ k, (∃ t, act (.read (.out (.idx k))) s = .next t) ↔ s.flag .ovf = true) ∧
    ((∃ t, act (.read (.out .mno)) s = .next t) ↔ s.flag .ovm = true)

/-- R201: the first command after reset. -/
def Obligations.FirstCommandAfterReset : Prop :=
  ∀ s : State, SameBlock s State.reset →
    exec .nop s = .next s ∧ exec .clear s = .next s ∧
    (∃ t, exec .encodeRng s = .next t ∧ t.status = 0x0D#8 ∧ t.err = 0#4) ∧
    exec .encodeHex s = .next { s with status := 0x03#8, err := 1#4 } ∧
    exec .decode s = .next { s with status := 0x03#8, err := 2#4 } ∧
    exec .validate s = .next { s with status := 0x23#8, err := 2#4 } ∧
    (∀ c : Byte, exec (.reserved c) s = .next { s with status := 0x03#8, err := 8#4 }) ∧
    (∀ r ∈ [OutReg.full, .ent, .chk, .saltv, .seedv, .mno], act (.read (.out r)) s = .refused (.noValue (.out r))) ∧
    ∀ k, act (.read (.out (.idx k))) s = .refused (.noValue (.out (.idx k)))

/-- A taken `GOTO` goes on right after the label, forwards or backwards, and the host's program stays the same; a branch
on a flag that is 0 goes on with the next action (R78's `IF`; the program as a list and the log are the model's, log
entries 6 and 9). -/
def Obligations.HostBranch : Prop :=
  ∀ (s : State) (f : Flag) (l : Nat) (st : BitVec 8), s.lastStatus = some st →
    (flagOf f st = false → act (.ifGoto f l) s = .next s) ∧
    ∀ before after : List Action, s.issued.reverse ++ s.pending = before ++ .label l :: after → .label l ∉ before →
      flagOf f st = true →
      act (.ifGoto f l) s = .next { s with issued := .label l :: before.reverse, pending := after }

/-! ### The units -/

/-- R26: `ENT` and `CHK` are the first 149 and the last 5 positions of `FULL`, and hold a value exactly when it does. -/
def Obligations.EntAndChkViews : Prop :=
  ∀ s : State, (s.full = none → s.ent = none ∧ s.chk = none) ∧
    ∀ f : BitVec 154, s.full = some f → ∃ (e : BitVec 149) (c : BitVec 5), s.ent = some e ∧ s.chk = some c ∧
      f = e ++ c ∧ (∀ j < 149, e.getMsbD j = f.getMsbD j) ∧ ∀ j < 5, c.getMsbD j = f.getMsbD (149 + j)

/-- R27: the fourteen views `IDX[k]` are the 11-bit slices in order, most significant symbol first; they tile `FULL`, the
first thirteen lie in `ENT`, and the last is the last six symbols of `ENT` followed by `CHK`. -/
def Obligations.IndexViewsTile : Prop :=
  ∀ s : State, (s.full = none → ∀ k, s.idx k = none) ∧
    ∀ f : BitVec 154, s.full = some f → ∃ i : Fin 14 → Index, (∀ k, s.idx k = some (i k)) ∧
      (∀ k, (i k).val = val ((bitsOf f).drop (11 * k.val) |>.take 11)) ∧
      f = fullOfIndices (List.ofFn i) ∧ (∀ wl, mapOut wl f = joinWords (List.ofFn fun k => wl[i k])) ∧
      (∀ k : Fin 13, (i k.castSucc).val = (sub (entOf f) (11 * k.val) 11).toNat) ∧
      (i 13).val = 32 * (sub (entOf f) 143 6).toNat + (chkOf f).toNat

/-- R170 and R171: `SALTV` and `SEEDV` are the first and the last 77 symbols of `FULL`, which they split. -/
def Obligations.PipelineViewsSplitFull : Prop :=
  ∀ s : State, (s.full = none → s.saltv = none ∧ s.seedv = none) ∧
    ∀ f : BitVec 154, s.full = some f → ∃ a b : BitVec 77, s.saltv = some a ∧ s.seedv = some b ∧
      bitsOf f = bitsOf a ++ bitsOf b ∧ bitsOf a = (bitsOf f).take 77

/-- Which bytes are hex digits and what they are worth (40_entropy_to_bits.md §1). R90 leaves `HexVal` undefined on other
bytes; that it answers `none` there is the model's choice (log entry 11). -/
def Obligations.HexDigitValues : Prop :=
  ∀ c : Byte,
    (isHexDigit c = true ↔ 0x30 ≤ c.toNat ∧ c.toNat ≤ 0x39 ∨ 0x41 ≤ c.toNat ∧ c.toNat ≤ 0x46 ∨ 0x61 ≤ c.toNat ∧ c.toNat ≤ 0x66) ∧
    (0x30 ≤ c.toNat → c.toNat ≤ 0x39 → hexVal c = some (c.toNat - 0x30)) ∧
    (0x41 ≤ c.toNat → c.toNat ≤ 0x46 → hexVal c = some (c.toNat - 0x41 + 10)) ∧
    (0x61 ≤ c.toNat → c.toNat ≤ 0x66 → hexVal c = some (c.toNat - 0x61 + 10)) ∧
    (isHexDigit c = false → hexVal c = none)

/-- R94: eight symbols a byte, most significant bit first, bytes in order (R51, R52). -/
def Obligations.BytesToBitsPositions : Prop :=
  ∀ (b : Bytes) (j : Nat), (bytesToBits b)[j]? = (b[j / 8]?).map fun c => c.getMsbD (j % 8)

/-- R92: four symbols a character, in order; on an even length exactly the bits of the bytes whose high nibble is the
first of two characters; and an unpaired last character never reaches `ENT`. -/
def Obligations.HexTextToBits : Prop :=
  (∀ h : Bytes, h.all isHexDigit = true →
    (hexToBits h).length = 4 * h.length ∧
    ∀ (j : Nat) (c : Byte), h[j]? = some c → ∃ v, hexVal c = some v ∧
      ((hexToBits h).drop (4 * j)).take 4 = bin 4 v) ∧
  (∀ (p : List (Byte × Byte)) (vs : List (Nat × Nat)),
    p.map (fun x => (hexVal x.1, hexVal x.2)) = vs.map (fun v => (some v.1, some v.2)) →
    hexToBits (p.flatMap fun x => [x.1, x.2]) =
      bytesToBits (vs.map fun v => BitVec.ofNat 8 (16 * v.1 + v.2))) ∧
  ∀ (h : Bytes) (c : Byte), hexCheck (h ++ [c]) = true → trunc149 (hexToBits (h ++ [c])) = trunc149 (hexToBits h)

/-- R97: which input symbols matter. On the hex path, characters 0 to 36 and the top bit of character 37, so that two
texts that agree there give the same mnemonic; on the random path, digest bytes 0 to 17 and the five top bits of byte 18. -/
def Obligations.WhichSymbolsMatter : Prop :=
  (∀ h : Bytes, hexCheck h = true → ∀ (j : Nat) (c : Byte) (v : Nat), j < 149 → h[j / 4]? = some c → hexVal c = some v →
    (trunc149 (hexToBits h)).getMsbD j = (BitVec.ofNat 4 v).getMsbD (j % 4)) ∧
  (∀ (s : State) (h h' : Bytes), hexCheck h = true → hexCheck h' = true →
    (∀ j < 37, (h[j]?).map hexVal = (h'[j]?).map hexVal) →
    (∀ c c' v v', h[37]? = some c → h'[37]? = some c' → hexVal c = some v → hexVal c' = some v' → (8 ≤ v ↔ 8 ≤ v')) →
    ∃ t t' : State, exec .encodeHex { s with hex := h } = .next t ∧ exec .encodeHex { s with hex := h' } = .next t' ∧
      t.mno = t'.mno ∧ t.full = t'.full ∧ t.mno.isSome) ∧
  ∀ (r : Draw) (j : Fin 149),
    (e2bRng r).getMsbD j.val = ((sha256 r.toList).get ⟨j.val / 8, by omega⟩).getMsbD (j.val % 8)

/-- R110 and R111: one byte a symbol, so the message hashed for a checksum has exactly 149 bytes, each 0x30 or 0x31. -/
def Obligations.ChecksumInputIsText : Prop :=
  (∀ (s : BitString) (j : Nat), (ascii s)[j]? = (s[j]?).map (fun b => if b then 0x31#8 else 0x30#8)) ∧
  ∀ ent : BitVec 149, ∃ m : Bytes, m.length = 149 ∧
    (∀ j < 149, m[j]? = some (if ent.getMsbD j then 0x31#8 else 0x30#8)) ∧ checksum ent = first5 (sha256 m)

/-- R112: `First5` is the five most significant bits of digest byte 0. -/
def Obligations.FirstFiveBits : Prop :=
  ∀ d : Digest, bitsOf (first5 d) = (bytesToBits d.toList).take 5 ∧ first5 d = BitVec.ofNat 5 ((d[0]).toNat / 8) ∧
    ∀ j < 5, (first5 d).getMsbD j = (d[0]).getMsbD j

/-- For every entropy exactly one of the 32 suffixes verifies, and for every thirteen first words exactly 64 of the 2048
last words do (41_checksum.md, consequences (a), (b), (d)). -/
def Obligations.OneChecksumPerEntropy : Prop :=
  (∀ (ent : BitVec 149) (c : BitVec 5), verify (ent ++ c) = true ↔ c = checksum ent) ∧
  ∀ first13 : BitVec 143,
    ((List.finRange 2048).filter fun j : Index => verify (first13 ++ BitVec.ofNat 11 j.val)).length = 64

/-- R124: `Split` cuts at every byte 0x20 and nowhere else: its tokens hold no 0x20, there is one more of them than there
are bytes 0x20, and joined again they are the text. -/
def Obligations.SplitAtEverySpace : Prop :=
  ∀ b : Bytes, (splitWords b).length = b.count 0x20#8 + 1 ∧ (∀ t ∈ splitWords b, 0x20#8 ∉ t) ∧ joinWords (splitWords b) = b

/-- R126: `WordToIdx` finds the one index whose entry equals the token; the empty token, a token longer than `WORD_MAX`
and any token that is no entry are absent. -/
def Obligations.LookupIsExact : Prop :=
  ∀ (wl : Wordlist) (t : Bytes), WordlistOk wl →
    (∀ i : Index, wordToIdx wl t = some i ↔ wl[i] = t) ∧
    (wordToIdx wl t = none ↔ t ∉ wl.toList) ∧ (t = [] ∨ wordMax < t.length → wordToIdx wl t = none)

/-- R128: an index and its 11 symbols determine each other. -/
def Obligations.IndexBitsInverse : Prop :=
  (∀ i : Index, (idxToBits i).length = 11 ∧ val (idxToBits i) = i.val) ∧
  ∀ (s : BitString) (i : Index), s.length = 11 → i.val = val s → idxToBits i = s

/-- R130: the two directions of WMAP are inverse; the valid inputs of `MapIn` are exactly the texts `MapOut` produces. -/
def Obligations.WordMapperInverse : Prop :=
  ∀ wl : Wordlist, WordlistOk wl →
    (∀ full : BitVec 154, mapIn wl (mapOut wl full) = .ok full) ∧
    ∀ (b : Bytes) (full : BitVec 154), mapIn wl b = .ok full → mapOut wl full = b
end

