-- ==== Sys2Proof/Laws/Bits.lean ====
section
/-! SUPPORT. Bit strings: lengths, positions, and that a register and its symbols determine each other. -/

namespace Sys2Proof.Machine

@[simp] theorem length_bitsOf {n : Nat} (v : BitVec n) : (bitsOf v).length = n := by simp [bitsOf]

@[simp] theorem length_bin (n v : Nat) : (bin n v).length = n := by simp [bin]

theorem getElem?_bitsOf {n : Nat} (v : BitVec n) (j : Nat) :
    (bitsOf v)[j]? = if j < n then some (v.getMsbD j) else none := by
  by_cases h : j < n <;> simp [bitsOf, h]

@[simp] theorem getElem_bitsOf {n : Nat} (v : BitVec n) (j : Nat) (h : j < (bitsOf v).length) :
    (bitsOf v)[j] = v.getMsbD j := by simp [bitsOf]

theorem bitsOf_injective {n : Nat} {v w : BitVec n} (h : bitsOf v = bitsOf w) : v = w := by
  refine BitVec.eq_of_getMsbD_eq fun i hi => ?_
  have := congrArg (·[i]?) h
  simp only [getElem?_bitsOf, if_pos hi, Option.some.injEq] at this
  exact this

/-- `val` starting from an accumulator. -/
theorem foldl_val (s : BitString) (a : Nat) :
    s.foldl (fun acc b => 2 * acc + b.toNat) a = a * 2 ^ s.length + val s := by
  induction s generalizing a with
  | nil => simp [val]
  | cons b s ih =>
    simp only [List.foldl_cons, List.length_cons, val] at ih ⊢
    rw [ih (2 * a + b.toNat), ih (2 * 0 + b.toNat), pow_succ]
    ring

theorem val_cons (b : Bool) (s : BitString) : val (b :: s) = b.toNat * 2 ^ s.length + val s := by
  have := foldl_val s b.toNat
  simpa [val] using this

theorem val_append (s t : BitString) : val (s ++ t) = val s * 2 ^ t.length + val t := by
  induction s with
  | nil => simp [val]
  | cons b s ih => rw [List.cons_append, val_cons, ih, val_cons, List.length_append, pow_add]; ring

theorem val_lt (s : BitString) : val s < 2 ^ s.length := by
  induction s with
  | nil => simp [val]
  | cons b s ih => rw [val_cons, List.length_cons, pow_succ]; cases b <;> simp <;> omega

/-- Strings of one length with one value are equal. -/
theorem val_injective {s t : BitString} (hl : s.length = t.length) (hv : val s = val t) : s = t := by
  induction s generalizing t with
  | nil => simpa using hl.symm
  | cons b s ih =>
    obtain _ | ⟨c, t⟩ := t
    · simp at hl
    · simp only [List.length_cons, Nat.add_right_cancel_iff] at hl
      rw [val_cons, val_cons, hl] at hv
      have hs := hl ▸ val_lt s
      have ht := val_lt t
      have hb : b = c := by cases b <;> cases c <;> simp at hv ⊢ <;> omega
      subst hb
      rw [ih hl (by omega)]

theorem bitsOf_cons {n : Nat} (b : Bool) (v : BitVec n) : bitsOf (BitVec.cons b v) = b :: bitsOf v := by
  refine List.ext_getElem? fun j => ?_
  cases j with
  | zero => simp only [getElem?_bitsOf, BitVec.getMsbD, BitVec.getLsbD_cons]; simp
  | succ j =>
    simp only [getElem?_bitsOf, BitVec.getMsbD, BitVec.getLsbD_cons, List.getElem?_cons_succ]
    by_cases hj : j < n
    · simp only [hj, Nat.add_lt_add_iff_right, if_true, decide_true, Bool.true_and, Option.some.injEq]
      rw [if_neg (by omega), show n + 1 - 1 - (j + 1) = n - 1 - j by omega]
    · simp [hj]

/-- The value of a register's symbols is the register as an integer (R10). -/
@[simp] theorem val_bitsOf {n : Nat} (v : BitVec n) : val (bitsOf v) = v.toNat := by
  induction n with
  | zero => simp [bitsOf, val, BitVec.eq_nil v]
  | succ n ih =>
    obtain ⟨b, w, rfl⟩ : ∃ b w, v = BitVec.cons b w := ⟨v.msb, v.setWidth n, (BitVec.cons_msb_setWidth v).symm⟩
    rw [bitsOf_cons, val_cons, ih, BitVec.toNat_cons, length_bitsOf, Nat.shiftLeft_eq, ← Nat.shiftLeft_eq,
      Nat.shiftLeft_add_eq_or_of_lt w.isLt]

@[simp] theorem ofBits_bitsOf {n : Nat} (v : BitVec n) : ofBits n (bitsOf v) = v := by simp [ofBits]

theorem bitsOf_ofBits {n : Nat} {s : BitString} (h : s.length = n) : bitsOf (ofBits n s) = s := by
  refine val_injective (by simp [h]) ?_
  have := val_lt s
  rw [h] at this
  simp [ofBits, Nat.mod_eq_of_lt this]

theorem val_bin {n v : Nat} (h : v < 2 ^ n) : val (bin n v) = v := by simp [bin, Nat.mod_eq_of_lt h]

theorem bin_val {n : Nat} {s : BitString} (h : s.length = n) : bin n (val s) = s := bitsOf_ofBits h

theorem getMsbD_ofBits {n : Nat} {s : BitString} (h : s.length = n) (j : Nat) :
    (ofBits n s).getMsbD j = (s[j]?).getD false := by
  by_cases hj : j < n
  · have h1 : (bitsOf (ofBits n s))[j]? = _ := getElem?_bitsOf _ j
    rw [bitsOf_ofBits h, if_pos hj] at h1
    simp [h1]
  · simp [BitVec.getMsbD, hj, List.getElem?_eq_none (h ▸ Nat.not_lt.mp hj)]

theorem bitsOf_append {m n : Nat} (v : BitVec m) (w : BitVec n) : bitsOf (v ++ w) = bitsOf v ++ bitsOf w := by
  refine List.ext_getElem? fun j => ?_
  simp only [List.getElem?_append, getElem?_bitsOf, length_bitsOf, BitVec.getMsbD_append]
  split_ifs <;> first | rfl | omega

theorem getMsbD_sub {n : Nat} (v : BitVec n) {a len j : Nat} (h : a + len ≤ n) (hj : j < len) :
    (sub v a len).getMsbD j = v.getMsbD (a + j) := by
  simp only [sub, BitVec.getMsbD, BitVec.getLsbD_extractLsb']
  rw [show n - a - len + (len - 1 - j) = n - 1 - (a + j) by omega]
  simp only [hj, show a + j < n by omega, show len - 1 - j < len by omega, decide_true, Bool.true_and]

/-- The symbols of a substring of a register (R9). -/
theorem bitsOf_sub {n : Nat} (v : BitVec n) {a len : Nat} (h : a + len ≤ n) :
    bitsOf (sub v a len) = ((bitsOf v).drop a).take len := by
  refine List.ext_getElem? fun j => ?_
  simp only [List.getElem?_take, List.getElem?_drop, getElem?_bitsOf]
  split_ifs with h1 h2 <;> first | rfl | omega | rw [getMsbD_sub v h h1]

@[simp] theorem sub_append_left {m n : Nat} (v : BitVec m) (w : BitVec n) : sub (v ++ w) 0 m = v := by
  apply bitsOf_injective
  rw [bitsOf_sub _ (by omega), bitsOf_append, List.drop_zero, List.take_left' (length_bitsOf v)]

@[simp] theorem sub_append_right {m n : Nat} (v : BitVec m) (w : BitVec n) : sub (v ++ w) m n = w := by
  apply bitsOf_injective
  rw [bitsOf_sub _ (by omega), bitsOf_append, List.drop_left' (length_bitsOf v),
    List.take_of_length_le (length_bitsOf w).le]

theorem length_bytesToBits (b : Bytes) : (bytesToBits b).length = 8 * b.length := by
  induction b with
  | nil => rfl
  | cons c b ih => simp only [bytesToBits, List.flatMap_cons, List.length_append, length_bin, List.length_cons] at *; omega

end Sys2Proof.Machine
end

