-- ==== Sys2Proof/Laws/Config.lean ====
section
/-! SUPPORT. The fixture Wordlist and the ROM's reset contents meet W1 to W3 (spec/10_state.md R31). -/

namespace Sys2Proof.Config

theorem fixtureFrom_eq_map (n i : Nat) : fixtureFrom n i = (List.range' i n).map fixtureWord := by
  induction n generalizing i with
  | zero => rfl
  | succ n ih => rw [fixtureFrom, ih, List.range'_succ, List.map_cons]

theorem fixtureWord_injective {i j : Nat} (hi : i < 10000) (hj : j < 10000) (h : fixtureWord i = fixtureWord j) : i = j := by
  simp only [fixtureWord, List.cons.injEq, ← BitVec.toNat_inj, BitVec.toNat_ofNat, and_true, true_and] at h
  omega

theorem fixtureWord_ok (i : Nat) : fixtureWord i ≠ [] ∧ 0x20#8 ∉ fixtureWord i ∧ (fixtureWord i).length ≤ wordMax := by
  refine ⟨by simp [fixtureWord], ?_, by simp [fixtureWord, wordMax]⟩
  simp only [fixtureWord, List.mem_cons, List.not_mem_nil, or_false, ← BitVec.toNat_inj, BitVec.toNat_ofNat]
  omega

theorem fixtureWordlist_ok : WordlistOk fixtureWordlist := by
  have h : fixtureWordlist.toList = (List.range' 0 2048).map fixtureWord := fixtureFrom_eq_map 2048 0
  rw [WordlistOk, h]
  refine ⟨List.Nodup.map_on (fun i hi j hj => fixtureWord_injective ?_ ?_) List.nodup_range', fun w hw => ?_⟩
  · simp only [List.mem_range'_1] at hi; omega
  · simp only [List.mem_range'_1] at hj; omega
  · obtain ⟨i, -, rfl⟩ := List.mem_map.mp hw
    exact fixtureWord_ok i

/-- The free Wordlist of the ROM meets the constraints the spec puts on it. -/
theorem wordlist_ok : WordlistOk wordlist := by
  unfold wordlist
  split
  · assumption
  · exact fixtureWordlist_ok

end Sys2Proof.Config
end

