-- ==== Sys2Proof/Laws/Csum.lean ====
section
/-! SUPPORT. The checksum unit: what `Verify` compares on a string put together from its two parts. -/

namespace Sys2Proof.Machine

@[simp] theorem entOf_append (ent : BitVec 149) (c : BitVec 5) : entOf (ent ++ c) = ent := sub_append_left ent c

@[simp] theorem chkOf_append (ent : BitVec 149) (c : BitVec 5) : chkOf (ent ++ c) = c := sub_append_right ent c

/-- A 154-bit string is its first 149 symbols followed by its last 5. -/
theorem entOf_append_chkOf (full : BitVec 154) : entOf full ++ chkOf full = full := by
  apply bitsOf_injective
  rw [bitsOf_append, entOf, chkOf, bitsOf_sub _ (by omega), bitsOf_sub _ (by omega), List.drop_zero,
    List.take_of_length_le (i := 5) (by simp), List.take_append_drop]

/-- `Verify` compares the stored checksum with the one of the entropy. -/
theorem verify_iff (full : BitVec 154) : verify full = true ↔ checksum (entOf full) = chkOf full := by simp [verify]

theorem length_ascii (s : BitString) : (ascii s).length = s.length := by simp [ascii]

end Sys2Proof.Machine
end

