-- ==== Sys2Proof/Laws/E2b.lean ====
section
/-! SUPPORT. The entropy converter: hex digits have values, and groups of symbols are found at their positions. -/

namespace Sys2Proof.Machine

/-- A byte is a hex digit exactly when it has a value (R90). -/
theorem isHexDigit_iff (c : Byte) : isHexDigit c = true ↔ ∃ v, hexVal c = some v := by
  rw [← Option.isSome_iff_exists]
  revert c
  decide

/-- The value of a hex digit fits four bits. -/
theorem hexVal_lt {c : Byte} {v : Nat} (h : hexVal c = some v) : v < 16 := by
  have hall : ∀ c : Byte, ∀ v ∈ hexVal c, v < 16 := by decide
  exact hall c v h

theorem hexSymbols_of {c : Byte} {v : Nat} (h : hexVal c = some v) : hexSymbols c = bin 4 v := by
  simp [hexSymbols, h]

theorem length_hexSymbols {c : Byte} (h : isHexDigit c = true) : (hexSymbols c).length = 4 := by
  obtain ⟨v, hv⟩ := (isHexDigit_iff c).mp h
  rw [hexSymbols_of hv, length_bin]

@[simp] theorem hexToBits_append (h h' : Bytes) : hexToBits (h ++ h') = hexToBits h ++ hexToBits h' := List.flatMap_append

/-- The place of group `j` in a string put together from groups of one length. -/
theorem getElem?_flatMap_groups {α : Type} (n : Nat) (hn : 0 < n) (f : α → BitString) (l : List α)
    (hf : ∀ a ∈ l, (f a).length = n) (j : Nat) : (l.flatMap f)[j]? = (l[j / n]?).bind fun a => (f a)[j % n]? := by
  induction l generalizing j with
  | nil => simp
  | cons a l ih =>
    have ha := hf a List.mem_cons_self
    rw [List.flatMap_cons, List.getElem?_append, ha]
    by_cases hj : j < n
    · simp [hj, Nat.div_eq_of_lt hj, Nat.mod_eq_of_lt hj]
    · rw [if_neg hj, ih (fun b hb => hf b (List.mem_cons_of_mem _ hb))]
      have h1 : j / n = (j - n) / n + 1 := by rw [Nat.div_eq_sub_div hn (by omega)]
      have h2 : j % n = (j - n) % n := Nat.mod_eq_sub_mod (by omega)
      rw [h1, h2, List.getElem?_cons_succ]

theorem length_hexToBits {h : Bytes} (hd : ∀ c ∈ h, isHexDigit c = true) : (hexToBits h).length = 4 * h.length := by
  induction h with
  | nil => rfl
  | cons c h ih =>
    have := ih fun d hd' => hd d (List.mem_cons_of_mem _ hd')
    simp only [hexToBits, List.flatMap_cons, List.length_append, List.length_cons] at this ⊢
    rw [this, length_hexSymbols (hd c List.mem_cons_self)]
    ring

/-- `HexCheck` in the words of R91. -/
theorem hexCheck_iff (h : Bytes) : hexCheck h = true ↔ (∀ c ∈ h, isHexDigit c = true) ∧ 39 ≤ h.length := by
  rw [hexCheck, Bool.and_eq_true, List.all_eq_true, decide_eq_true_iff, Config.hexMin]

/-- The symbols of a truncated string are its first 149 (R96). -/
theorem bitsOf_trunc149 {s : BitString} (h : 149 ≤ s.length) : bitsOf (trunc149 s) = s.take 149 :=
  bitsOf_ofBits (by simp [h])

end Sys2Proof.Machine
end

