-- ==== Sys2Proof/Laws/Flags.lean ====
section
/-! SUPPORT. The values of `STATUS` and the flags they hold. -/

namespace Sys2Proof.Machine

theorem statusEncoded_eq : statusEncoded = 0x0D#8 := by decide
theorem statusDecoded_eq : statusDecoded = 0x15#8 := by decide
theorem statusValidated_eq : statusValidated = 0x11#8 := by decide
theorem statusFailed_false : statusFailed false = 0x03#8 := by decide
theorem statusFailed_true : statusFailed true = 0x23#8 := by decide
theorem statusCleared_eq : statusCleared = 0x00#8 := by decide

@[simp] theorem flagOf_encoded (f : Flag) : flagOf f statusEncoded = decide (f = .done ∨ f = .ovf ∨ f = .ovm) := by
  cases f <;> decide

@[simp] theorem flagOf_decoded (f : Flag) : flagOf f statusDecoded = decide (f = .done ∨ f = .ovf ∨ f = .valid) := by
  cases f <;> decide

@[simp] theorem flagOf_validated (f : Flag) : flagOf f statusValidated = decide (f = .done ∨ f = .valid) := by
  cases f <;> decide

@[simp] theorem flagOf_failed (f : Flag) (b : Bool) :
    flagOf f (statusFailed b) = decide (f = .done ∨ f = .errf ∨ f = .minv ∧ b = true) := by
  cases f <;> cases b <;> decide

@[simp] theorem flagOf_cleared (f : Flag) : flagOf f statusCleared = false := by cases f <;> decide

/-- A failure kind has a code, and none has the code 0 (R180). -/
theorem Kind.code_ne_zero (k : Kind) : k.code ≠ 0#4 := by cases k <;> decide

end Sys2Proof.Machine
end

