-- ==== Sys2Proof/Laws/State.lean ====
section
/-! SUPPORT. What each update of the state leaves in each field, so that no proof unfolds a record update. -/

namespace Sys2Proof.Machine

@[simp] theorem State.raise_status (s : State) (b : Bool) (k : Kind) : (s.raise b k).status = statusFailed b := rfl
@[simp] theorem State.raise_err (s : State) (b : Bool) (k : Kind) : (s.raise b k).err = k.code := rfl
@[simp] theorem State.raise_hex (s : State) (b : Bool) (k : Kind) : (s.raise b k).hex = s.hex := rfl
@[simp] theorem State.raise_mni (s : State) (b : Bool) (k : Kind) : (s.raise b k).mni = s.mni := rfl
@[simp] theorem State.raise_full (s : State) (b : Bool) (k : Kind) : (s.raise b k).full = none := rfl
@[simp] theorem State.raise_mno (s : State) (b : Bool) (k : Kind) : (s.raise b k).mno = none := rfl
@[simp] theorem State.raise_wl (s : State) (b : Bool) (k : Kind) : (s.raise b k).wl = s.wl := rfl
@[simp] theorem State.raise_rngPort (s : State) (b : Bool) (k : Kind) : (s.raise b k).rngPort = s.rngPort := rfl
@[simp] theorem State.raise_rngCount (s : State) (b : Bool) (k : Kind) : (s.raise b k).rngCount = s.rngCount := rfl
@[simp] theorem State.raise_pending (s : State) (b : Bool) (k : Kind) : (s.raise b k).pending = s.pending := rfl
@[simp] theorem State.raise_issued (s : State) (b : Bool) (k : Kind) : (s.raise b k).issued = s.issued := rfl
@[simp] theorem State.raise_reads (s : State) (b : Bool) (k : Kind) : (s.raise b k).reads = s.reads := rfl

@[simp] theorem State.commitEncode_status (s : State) (f : BitVec 154) (m : Bytes) : (s.commitEncode f m).status = statusEncoded := rfl
@[simp] theorem State.commitEncode_err (s : State) (f : BitVec 154) (m : Bytes) : (s.commitEncode f m).err = 0#4 := rfl
@[simp] theorem State.commitEncode_hex (s : State) (f : BitVec 154) (m : Bytes) : (s.commitEncode f m).hex = s.hex := rfl
@[simp] theorem State.commitEncode_mni (s : State) (f : BitVec 154) (m : Bytes) : (s.commitEncode f m).mni = s.mni := rfl
@[simp] theorem State.commitEncode_full (s : State) (f : BitVec 154) (m : Bytes) : (s.commitEncode f m).full = some f := rfl
@[simp] theorem State.commitEncode_mno (s : State) (f : BitVec 154) (m : Bytes) : (s.commitEncode f m).mno = some m := rfl
@[simp] theorem State.commitEncode_wl (s : State) (f : BitVec 154) (m : Bytes) : (s.commitEncode f m).wl = s.wl := rfl
@[simp] theorem State.commitEncode_rngPort (s : State) (f : BitVec 154) (m : Bytes) : (s.commitEncode f m).rngPort = s.rngPort := rfl
@[simp] theorem State.commitEncode_rngCount (s : State) (f : BitVec 154) (m : Bytes) : (s.commitEncode f m).rngCount = s.rngCount := rfl
@[simp] theorem State.commitEncode_pending (s : State) (f : BitVec 154) (m : Bytes) : (s.commitEncode f m).pending = s.pending := rfl
@[simp] theorem State.commitEncode_issued (s : State) (f : BitVec 154) (m : Bytes) : (s.commitEncode f m).issued = s.issued := rfl
@[simp] theorem State.commitEncode_reads (s : State) (f : BitVec 154) (m : Bytes) : (s.commitEncode f m).reads = s.reads := rfl

@[simp] theorem State.commitDecode_status (s : State) (f : BitVec 154) : (s.commitDecode f).status = statusDecoded := rfl
@[simp] theorem State.commitDecode_err (s : State) (f : BitVec 154) : (s.commitDecode f).err = 0#4 := rfl
@[simp] theorem State.commitDecode_hex (s : State) (f : BitVec 154) : (s.commitDecode f).hex = s.hex := rfl
@[simp] theorem State.commitDecode_mni (s : State) (f : BitVec 154) : (s.commitDecode f).mni = s.mni := rfl
@[simp] theorem State.commitDecode_full (s : State) (f : BitVec 154) : (s.commitDecode f).full = some f := rfl
@[simp] theorem State.commitDecode_mno (s : State) (f : BitVec 154) : (s.commitDecode f).mno = none := rfl
@[simp] theorem State.commitDecode_wl (s : State) (f : BitVec 154) : (s.commitDecode f).wl = s.wl := rfl
@[simp] theorem State.commitDecode_rngPort (s : State) (f : BitVec 154) : (s.commitDecode f).rngPort = s.rngPort := rfl
@[simp] theorem State.commitDecode_rngCount (s : State) (f : BitVec 154) : (s.commitDecode f).rngCount = s.rngCount := rfl
@[simp] theorem State.commitDecode_pending (s : State) (f : BitVec 154) : (s.commitDecode f).pending = s.pending := rfl
@[simp] theorem State.commitDecode_issued (s : State) (f : BitVec 154) : (s.commitDecode f).issued = s.issued := rfl
@[simp] theorem State.commitDecode_reads (s : State) (f : BitVec 154) : (s.commitDecode f).reads = s.reads := rfl

@[simp] theorem State.commitValidate_status (s : State) : (s.commitValidate).status = statusValidated := rfl
@[simp] theorem State.commitValidate_err (s : State) : (s.commitValidate).err = 0#4 := rfl
@[simp] theorem State.commitValidate_hex (s : State) : (s.commitValidate).hex = s.hex := rfl
@[simp] theorem State.commitValidate_mni (s : State) : (s.commitValidate).mni = s.mni := rfl
@[simp] theorem State.commitValidate_full (s : State) : (s.commitValidate).full = none := rfl
@[simp] theorem State.commitValidate_mno (s : State) : (s.commitValidate).mno = none := rfl
@[simp] theorem State.commitValidate_wl (s : State) : (s.commitValidate).wl = s.wl := rfl
@[simp] theorem State.commitValidate_rngPort (s : State) : (s.commitValidate).rngPort = s.rngPort := rfl
@[simp] theorem State.commitValidate_rngCount (s : State) : (s.commitValidate).rngCount = s.rngCount := rfl
@[simp] theorem State.commitValidate_pending (s : State) : (s.commitValidate).pending = s.pending := rfl
@[simp] theorem State.commitValidate_issued (s : State) : (s.commitValidate).issued = s.issued := rfl
@[simp] theorem State.commitValidate_reads (s : State) : (s.commitValidate).reads = s.reads := rfl

@[simp] theorem State.commitClear_status (s : State) : (s.commitClear).status = statusCleared := rfl
@[simp] theorem State.commitClear_err (s : State) : (s.commitClear).err = 0#4 := rfl
@[simp] theorem State.commitClear_hex (s : State) : (s.commitClear).hex = [] := rfl
@[simp] theorem State.commitClear_mni (s : State) : (s.commitClear).mni = [] := rfl
@[simp] theorem State.commitClear_full (s : State) : (s.commitClear).full = none := rfl
@[simp] theorem State.commitClear_mno (s : State) : (s.commitClear).mno = none := rfl
@[simp] theorem State.commitClear_wl (s : State) : (s.commitClear).wl = s.wl := rfl
@[simp] theorem State.commitClear_rngPort (s : State) : (s.commitClear).rngPort = s.rngPort := rfl
@[simp] theorem State.commitClear_rngCount (s : State) : (s.commitClear).rngCount = s.rngCount := rfl
@[simp] theorem State.commitClear_pending (s : State) : (s.commitClear).pending = s.pending := rfl
@[simp] theorem State.commitClear_issued (s : State) : (s.commitClear).issued = s.issued := rfl
@[simp] theorem State.commitClear_reads (s : State) : (s.commitClear).reads = s.reads := rfl

@[simp] theorem State.resetBlock_status (s : State) : (s.resetBlock).status = 0x00#8 := rfl
@[simp] theorem State.resetBlock_err (s : State) : (s.resetBlock).err = 0#4 := rfl
@[simp] theorem State.resetBlock_hex (s : State) : (s.resetBlock).hex = [] := rfl
@[simp] theorem State.resetBlock_mni (s : State) : (s.resetBlock).mni = [] := rfl
@[simp] theorem State.resetBlock_full (s : State) : (s.resetBlock).full = none := rfl
@[simp] theorem State.resetBlock_mno (s : State) : (s.resetBlock).mno = none := rfl
@[simp] theorem State.resetBlock_wl (s : State) : (s.resetBlock).wl = s.wl := rfl
@[simp] theorem State.resetBlock_rngPort (s : State) : (s.resetBlock).rngPort = s.rngPort := rfl
@[simp] theorem State.resetBlock_rngCount (s : State) : (s.resetBlock).rngCount = s.rngCount := rfl
@[simp] theorem State.resetBlock_pending (s : State) : (s.resetBlock).pending = s.pending := rfl
@[simp] theorem State.resetBlock_issued (s : State) : (s.resetBlock).issued = s.issued := rfl
@[simp] theorem State.resetBlock_reads (s : State) : (s.resetBlock).reads = s.reads := rfl

@[simp] theorem State.issue_status (s : State) (a : Action) (l : List Action) : (s.issue a l).status = s.status := rfl
@[simp] theorem State.issue_err (s : State) (a : Action) (l : List Action) : (s.issue a l).err = s.err := rfl
@[simp] theorem State.issue_hex (s : State) (a : Action) (l : List Action) : (s.issue a l).hex = s.hex := rfl
@[simp] theorem State.issue_mni (s : State) (a : Action) (l : List Action) : (s.issue a l).mni = s.mni := rfl
@[simp] theorem State.issue_full (s : State) (a : Action) (l : List Action) : (s.issue a l).full = s.full := rfl
@[simp] theorem State.issue_mno (s : State) (a : Action) (l : List Action) : (s.issue a l).mno = s.mno := rfl
@[simp] theorem State.issue_wl (s : State) (a : Action) (l : List Action) : (s.issue a l).wl = s.wl := rfl
@[simp] theorem State.issue_rngPort (s : State) (a : Action) (l : List Action) : (s.issue a l).rngPort = s.rngPort := rfl
@[simp] theorem State.issue_rngCount (s : State) (a : Action) (l : List Action) : (s.issue a l).rngCount = s.rngCount := rfl
@[simp] theorem State.issue_pending (s : State) (a : Action) (l : List Action) : (s.issue a l).pending = l := rfl
@[simp] theorem State.issue_issued (s : State) (a : Action) (l : List Action) : (s.issue a l).issued = a :: s.issued := rfl
@[simp] theorem State.issue_reads (s : State) (a : Action) (l : List Action) : (s.issue a l).reads = s.reads := rfl

@[simp] theorem State.withCommand_status (s : State) (c : Byte) : (s.withCommand c).status = s.status := rfl
@[simp] theorem State.withCommand_err (s : State) (c : Byte) : (s.withCommand c).err = s.err := rfl
@[simp] theorem State.withCommand_hex (s : State) (c : Byte) : (s.withCommand c).hex = s.hex := rfl
@[simp] theorem State.withCommand_mni (s : State) (c : Byte) : (s.withCommand c).mni = s.mni := rfl
@[simp] theorem State.withCommand_full (s : State) (c : Byte) : (s.withCommand c).full = s.full := rfl
@[simp] theorem State.withCommand_mno (s : State) (c : Byte) : (s.withCommand c).mno = s.mno := rfl
@[simp] theorem State.withCommand_wl (s : State) (c : Byte) : (s.withCommand c).wl = s.wl := rfl
@[simp] theorem State.withCommand_rngPort (s : State) (c : Byte) : (s.withCommand c).rngPort = s.rngPort := rfl
@[simp] theorem State.withCommand_rngCount (s : State) (c : Byte) : (s.withCommand c).rngCount = s.rngCount := rfl
@[simp] theorem State.withCommand_pending (s : State) (c : Byte) : (s.withCommand c).pending = .writeCmd c :: s.pending := rfl
@[simp] theorem State.withCommand_issued (s : State) (c : Byte) : (s.withCommand c).issued = s.issued := rfl
@[simp] theorem State.withCommand_reads (s : State) (c : Byte) : (s.withCommand c).reads = s.reads := rfl

@[simp] theorem State.takeDraw_status (s : State) : s.takeDraw.2.status = s.status := by unfold State.takeDraw; split <;> rfl
@[simp] theorem State.takeDraw_err (s : State) : s.takeDraw.2.err = s.err := by unfold State.takeDraw; split <;> rfl
@[simp] theorem State.takeDraw_hex (s : State) : s.takeDraw.2.hex = s.hex := by unfold State.takeDraw; split <;> rfl
@[simp] theorem State.takeDraw_mni (s : State) : s.takeDraw.2.mni = s.mni := by unfold State.takeDraw; split <;> rfl
@[simp] theorem State.takeDraw_full (s : State) : s.takeDraw.2.full = s.full := by unfold State.takeDraw; split <;> rfl
@[simp] theorem State.takeDraw_mno (s : State) : s.takeDraw.2.mno = s.mno := by unfold State.takeDraw; split <;> rfl
@[simp] theorem State.takeDraw_wl (s : State) : s.takeDraw.2.wl = s.wl := by unfold State.takeDraw; split <;> rfl
@[simp] theorem State.takeDraw_pending (s : State) : s.takeDraw.2.pending = s.pending := by unfold State.takeDraw; split <;> rfl
@[simp] theorem State.takeDraw_issued (s : State) : s.takeDraw.2.issued = s.issued := by unfold State.takeDraw; split <;> rfl
@[simp] theorem State.takeDraw_reads (s : State) : s.takeDraw.2.reads = s.reads := by unfold State.takeDraw; split <;> rfl

/-- A draw that a test bench has put at the port is the one taken, and it is spent. -/
theorem State.takeDraw_port (s : State) (r : Draw) : State.takeDraw { s with rngPort := r :: s.rngPort } = (r, s) := rfl

/-- With nothing at the port the source itself answers, and its counter goes on. -/
theorem State.takeDraw_source (s : State) (h : s.rngPort = []) :
    s.takeDraw = (Config.rngDraw s.rngCount, { s with rngCount := s.rngCount + 1 }) := by
  unfold State.takeDraw; split <;> simp_all

end Sys2Proof.Machine
end

