-- ==== Sys2Proof/Laws/Wmap.lean ====
section
/-! SUPPORT. The word mapper: cutting and joining, lookups, and indices against the 154 bits. -/

namespace Sys2Proof.Machine

open Sys2Proof.Config

/-- Cutting what was joined from words free of 0x20 gives the words back (W2). -/
theorem splitWords_joinWords {ws : List Bytes} (hne : ws ≠ []) (h : ∀ w ∈ ws, 0x20#8 ∉ w) :
    splitWords (joinWords ws) = ws := List.splitOn_intercalate 0x20#8 h hne

/-- Joining what was cut gives the text back. -/
theorem joinWords_splitWords (b : Bytes) : joinWords (splitWords b) = b := List.intercalate_splitOn 0x20#8

/-- A lookup answers only an index whose entry equals the token. -/
theorem wordToIdx_sound {wl : Wordlist} {t : Bytes} {i : Index} (h : wordToIdx wl t = some i) : wl[i] = t := by
  unfold wordToIdx at h
  split at h
  · rename_i j hj
    split at h
    · obtain rfl := Option.some.inj h
      obtain ⟨hlt, hp, -⟩ := List.findIdx?_eq_some_iff_getElem.mp hj
      simpa using hp
    · simp at h
  · simp at h

/-- A token that is an entry is found. -/
theorem wordToIdx_isSome {wl : Wordlist} {t : Bytes} (h : t ∈ wl.toList) : ∃ i, wordToIdx wl t = some i := by
  unfold wordToIdx
  split
  · rename_i j hj
    obtain ⟨hlt, -, -⟩ := List.findIdx?_eq_some_iff_getElem.mp hj
    exact ⟨⟨j, by simpa using hlt⟩, dif_pos (by simpa using hlt)⟩
  · rename_i hn
    rw [List.findIdx?_eq_none_iff] at hn
    simpa using hn t h

theorem getElem_mem_toList (wl : Wordlist) (i : Index) : wl[i] ∈ wl.toList := by simp

/-- By W1 two indices with one entry are one index. -/
theorem index_unique {wl : Wordlist} (h : wl.toList.Nodup) {i j : Index} (hij : wl[i] = wl[j]) : i = j := by
  have := (List.Nodup.getElem_inj_iff h (i := i.val) (j := j.val) (hi := by simp) (hj := by simp)).mp (by simpa using hij)
  exact Fin.ext this

/-- By W1 a lookup of an entry answers its index. -/
theorem wordToIdx_getElem {wl : Wordlist} (h : wl.toList.Nodup) (i : Index) : wordToIdx wl wl[i] = some i := by
  obtain ⟨j, hj⟩ := wordToIdx_isSome (getElem_mem_toList wl i)
  rw [hj, index_unique h (wordToIdx_sound hj)]

/-- Looking up a list of tokens succeeds only on the words of the indices it answers. -/
theorem lookups_sound {wl : Wordlist} {ws : List Bytes} {is : List Index} (h : ws.mapM (wordToIdx wl) = some is) :
    ws = is.map (idxToWord wl) := by
  induction ws generalizing is with
  | nil => simp at h; simp [← h]
  | cons w ws ih =>
    simp only [List.mapM_cons, Option.bind_eq_bind, Option.bind_eq_some_iff, Option.pure_def, Option.some.injEq] at h
    obtain ⟨i, hi, js, hjs, rfl⟩ := h
    rw [List.map_cons, ← ih hjs, idxToWord, wordToIdx_sound hi]

/-- Looking up the words of a list of indices answers those indices (W1). -/
theorem lookups_words {wl : Wordlist} (h : wl.toList.Nodup) (is : List Index) :
    (is.map (idxToWord wl)).mapM (wordToIdx wl) = some is := by
  induction is with
  | nil => rfl
  | cons i is ih =>
    rw [List.map_cons, List.mapM_cons, idxToWord, wordToIdx_getElem h i, ih]
    rfl

/-- Looking up a list of tokens fails exactly when one of them is no entry (R127). -/
theorem lookups_none_iff {wl : Wordlist} {ws : List Bytes} :
    ws.mapM (wordToIdx wl) = none ↔ ∃ w ∈ ws, w ∉ wl.toList := by
  constructor
  · intro h
    by_contra hc
    simp only [not_exists, not_and, not_not] at hc
    induction ws with
    | nil => simp at h
    | cons w ws ih =>
      obtain ⟨i, hi⟩ := wordToIdx_isSome (hc w List.mem_cons_self)
      refine ih ?_ fun v hv => hc v (List.mem_cons_of_mem _ hv)
      cases hm : ws.mapM (wordToIdx wl) with
      | none => rfl
      | some is => simp [List.mapM_cons, hi, hm] at h
  · rintro ⟨w, hw, hn⟩
    cases h : ws.mapM (wordToIdx wl) with
    | none => rfl
    | some is =>
      rw [lookups_sound h] at hw
      obtain ⟨i, -, rfl⟩ := List.mem_map.mp hw
      exact absurd (getElem_mem_toList wl i) hn

/-- `MapIn` once the word count is known to be right. -/
theorem mapIn_of_count {wl : Wordlist} {b : Bytes} (h : (splitWords b).length = 14) :
    mapIn wl b = match (splitWords b).mapM (wordToIdx wl) with
      | some is => .ok (fullOfIndices is)
      | none => .error .unknownWord := by
  have hc : wordCountOk b = true := by simp [wordCountOk, words, h]
  exact if_pos hc

/-- `MapIn` on a text that has not fourteen tokens. -/
theorem mapIn_of_bad_count {wl : Wordlist} {b : Bytes} (h : (splitWords b).length ≠ 14) :
    mapIn wl b = .error .invalidWordCount := by
  simp [mapIn, wordCountOk, words, h]

@[simp] theorem length_indicesOf (full : BitVec 154) : (indicesOf full).length = 14 := by simp [indicesOf]

@[simp] theorem length_idxToBits (i : Index) : (idxToBits i).length = 11 := length_bin 11 i.val

theorem length_flatMap_idxToBits (is : List Index) : (is.flatMap idxToBits).length = 11 * is.length := by
  induction is with
  | nil => rfl
  | cons i is ih => simp only [List.flatMap_cons, List.length_append, length_idxToBits, ih, List.length_cons]; omega

/-- The 11 symbols of `IDX[k]` are the slice itself (R120, R128). -/
theorem idxToBits_slice11 (full : BitVec 154) (k : Fin 14) :
    idxToBits (slice11 full k) = ((bitsOf full).drop (11 * k.val)).take 11 := by
  rw [← bitsOf_sub full (by omega)]
  simp [idxToBits, slice11, bin]

/-- Cutting a string of `n` groups of 11 into its groups and joining them again gives the string. -/
theorem flatMap_groups (n : Nat) (s : BitString) (h : s.length = 11 * n) :
    (List.range n).flatMap (fun k => (s.drop (11 * k)).take 11) = s := by
  induction n generalizing s with
  | zero => simpa using (List.length_eq_zero_iff.mp h).symm
  | succ n ih =>
    rw [List.range_succ_eq_map, List.flatMap_cons, List.flatMap_map]
    have := ih (s.drop 11) (by simp; omega)
    simp only [List.drop_drop] at this
    simp only [Nat.succ_eq_add_one, show ∀ k, 11 * (k + 1) = 11 + 11 * k by intro k; ring, this]
    simp

/-- The indices of a string, written back, are the string (R27, R130). -/
theorem fullOfIndices_indicesOf (full : BitVec 154) : fullOfIndices (indicesOf full) = full := by
  rw [fullOfIndices, indicesOf, List.ofFn_eq_map, List.flatMap_map]
  simp only [idxToBits_slice11]
  have : (List.finRange 14).flatMap (fun k => ((bitsOf full).drop (11 * k.val)).take 11) = bitsOf full := by
    rw [← List.flatMap_map (fun k : Fin 14 => k.val) (fun k => ((bitsOf full).drop (11 * k)).take 11), List.map_coe_finRange_eq_range]
    exact flatMap_groups 14 _ (by simp)
  rw [this, ofBits_bitsOf]

/-- Group `k` of the symbols of a list of indices is index `k`. -/
theorem drop_take_flatMap (is : List Index) (k : Nat) (i : Index) (h : is[k]? = some i) :
    ((is.flatMap idxToBits).drop (11 * k)).take 11 = idxToBits i := by
  induction is generalizing k with
  | nil => simp at h
  | cons j is ih =>
    cases k with
    | zero =>
      obtain rfl : j = i := by simpa using h
      simp [List.take_left']
    | succ k =>
      rw [show 11 * (k + 1) = (idxToBits j).length + 11 * k by simp; ring, List.flatMap_cons,
        ← List.drop_drop, List.drop_left]
      exact ih k (by simpa using h)

/-- The indices of the string written from fourteen indices are those (R130). -/
theorem indicesOf_fullOfIndices {is : List Index} (h : is.length = 14) : indicesOf (fullOfIndices is) = is := by
  refine List.ext_getElem? fun k => ?_
  by_cases hk : k < 14
  · have hi : is[k]? = some is[k] := List.getElem?_eq_getElem (by omega)
    have hb : bitsOf (fullOfIndices is) = is.flatMap idxToBits :=
      bitsOf_ofBits (by rw [length_flatMap_idxToBits, h])
    have hs := idxToBits_slice11 (fullOfIndices is) ⟨k, hk⟩
    rw [hb, drop_take_flatMap is k _ hi] at hs
    have he : slice11 (fullOfIndices is) ⟨k, hk⟩ = is[k] := by
      have hv := congrArg val hs
      rw [idxToBits, idxToBits, val_bin (slice11 _ _).isLt, val_bin is[k].isLt] at hv
      exact Fin.ext hv
    rw [hi, indicesOf, List.getElem?_ofFn]
    simp [hk, he]
  · rw [List.getElem?_eq_none (by simp; omega), List.getElem?_eq_none (by omega)]

end Sys2Proof.Machine
end

