-- ==== Sys2Proof/Laws/Ops.lean ====
section
/-! SUPPORT. What each shared operation, and so each command, can do. -/

namespace Sys2Proof.Machine

open Sys2Proof.Config

/-- `EncodeCore` always commits: the self-check compares one function's value with itself (R143). -/
theorem State.encodeCore_eq (s : State) (ent : BitVec 149) :
    s.encodeCore ent = s.commitEncode (ent ++ checksum ent) (mapOut s.wl (ent ++ checksum ent)) :=
  if_pos ((verify_iff _).mpr (by simp))

/-- The string `EncodeCore` commits verifies (R116). -/
theorem verify_encoded (ent : BitVec 149) : verify (ent ++ checksum ent) = true := (verify_iff _).mpr (by simp)

/-- The kinds of failure `DecodeCore` can raise (R150). -/
def decodeKinds : List Kind := [.invalidWordCount, .unknownWord, .checksumMismatch]

theorem mapIn_error {wl : Wordlist} {b : Bytes} {k : Kind} (h : mapIn wl b = .error k) : k ∈ decodeKinds := by
  unfold mapIn at h
  split at h
  · split at h
    · cases h
    · cases h; decide
  · cases h; decide

theorem decodeCore_ok {wl : Wordlist} {b : Bytes} {full : BitVec 154} (h : decodeCore wl b = .ok full) :
    mapIn wl b = .ok full ∧ verify full = true := by
  unfold decodeCore at h
  split at h
  · rename_i f hf
    split at h
    · rename_i hv
      cases h
      exact ⟨hf, hv⟩
    · cases h
  · cases h

theorem decodeCore_error {wl : Wordlist} {b : Bytes} {k : Kind} (h : decodeCore wl b = .error k) : k ∈ decodeKinds := by
  unfold decodeCore at h
  split at h
  · split at h
    · cases h
    · cases h; decide
  · rename_i k' hk
    cases h
    exact mapIn_error hk

/-- Everything the command `i` can do to a state `s`: the states `t` it can leave. -/
def ExecEffect (s t : State) : Instr → Prop
  | .nop => t = s
  | .encodeRng => ∃ f, verify f = true ∧ t = s.takeDraw.2.commitEncode f (mapOut s.wl f)
  | .encodeHex => (∃ f, verify f = true ∧ t = s.commitEncode f (mapOut s.wl f)) ∨ t = s.raise false .invalidEntropy
  | .decode => (∃ f, verify f = true ∧ t = s.commitDecode f) ∨ ∃ k ∈ decodeKinds, t = s.raise false k
  | .validate => t = s.commitValidate ∨ ∃ k ∈ decodeKinds, t = s.raise true k
  | .clear => t = s.commitClear
  | .reserved _ => t = s.raise false .illegalCommand

/-- Every command ends in a next state, and that is one of those its effect names. -/
theorem exec_effect (i : Instr) (s : State) : ∃ t, exec i s = .next t ∧ ExecEffect s t i := by
  cases i with
  | nop => exact ⟨_, rfl, rfl⟩
  | encodeRng =>
    refine ⟨_, rfl, _, verify_encoded (e2bRng s.takeDraw.1), ?_⟩
    rw [State.encodeCore_eq, State.takeDraw_wl]
  | encodeHex =>
    refine ⟨_, rfl, ?_⟩
    simp only [e2bHex]
    split
    · rename_i ent h
      exact .inl ⟨_, verify_encoded ent, s.encodeCore_eq ent⟩
    · rename_i k h
      split at h
      · cases h
      · cases h; exact .inr rfl
  | decode =>
    refine ⟨_, rfl, ?_⟩
    split
    · rename_i f h
      exact .inl ⟨f, (decodeCore_ok h).2, rfl⟩
    · rename_i k h
      exact .inr ⟨k, decodeCore_error h, rfl⟩
  | validate =>
    refine ⟨_, rfl, ?_⟩
    split
    · exact .inl rfl
    · rename_i k h
      exact .inr ⟨k, decodeCore_error h, rfl⟩
  | clear => exact ⟨_, rfl, rfl⟩
  | reserved c => exact ⟨_, rfl, rfl⟩

/-- The same, from the state a command left. -/
theorem effect_of_exec {i : Instr} {s t : State} (h : exec i s = .next t) : ExecEffect s t i := by
  obtain ⟨u, hu, he⟩ := exec_effect i s
  rw [h] at hu
  cases hu
  exact he

/-- No command touches the ROM, the host's program or the host's log. -/
theorem exec_outside {i : Instr} {s t : State} (h : exec i s = .next t) :
    t.wl = s.wl ∧ t.pending = s.pending ∧ t.issued = s.issued ∧ t.reads = s.reads := by
  have he := effect_of_exec h
  cases i <;> simp only [ExecEffect] at he
  case nop | clear | reserved => subst he; simp
  case encodeRng => obtain ⟨f, -, rfl⟩ := he; simp
  case encodeHex => obtain ⟨f, -, rfl⟩ | rfl := he <;> simp
  case decode => obtain ⟨f, -, rfl⟩ | ⟨k, -, rfl⟩ := he <;> simp
  case validate => obtain rfl | ⟨k, -, rfl⟩ := he <;> simp

end Sys2Proof.Machine
end

