-- ==== Sys2Proof/Laws/PerInstr.lean ====
section
/-! SUPPORT. Statements made for every constructor of `Instr`: its byte is a reserved one exactly when it is the command `reserved`. -/

namespace Sys2Proof.Laws.ReservedBytes

/-- The byte of a well-formed command is reserved exactly when the command is `reserved` (spec/30_encoding.md R74), and a legal
command's byte has `RSV = 0000` (R71). -/
def Statement (i : Instr) : Prop :=
  i.wf = true →
    (isReserved (encode i) = true ↔ ∃ c, i = .reserved c) ∧ ((∀ c, i ≠ .reserved c) → fieldRsv (encode i) = 0b0000#4)

theorem nop : Statement .nop := fun _ => ⟨⟨fun h => absurd h (by decide), fun ⟨_, h⟩ => nomatch h⟩, fun _ => by decide⟩

theorem encodeRng : Statement .encodeRng :=
  fun _ => ⟨⟨fun h => absurd h (by decide), fun ⟨_, h⟩ => nomatch h⟩, fun _ => by decide⟩

theorem encodeHex : Statement .encodeHex :=
  fun _ => ⟨⟨fun h => absurd h (by decide), fun ⟨_, h⟩ => nomatch h⟩, fun _ => by decide⟩

theorem decode : Statement .decode :=
  fun _ => ⟨⟨fun h => absurd h (by decide), fun ⟨_, h⟩ => nomatch h⟩, fun _ => by decide⟩

theorem validate : Statement .validate :=
  fun _ => ⟨⟨fun h => absurd h (by decide), fun ⟨_, h⟩ => nomatch h⟩, fun _ => by decide⟩

theorem clear : Statement .clear :=
  fun _ => ⟨⟨fun h => absurd h (by decide), fun ⟨_, h⟩ => nomatch h⟩, fun _ => by decide⟩

theorem reserved (c : Byte) : Statement (.reserved c) :=
  fun h => ⟨⟨fun _ => ⟨c, rfl⟩, fun _ => h⟩, fun hn => absurd rfl (hn c)⟩

end Sys2Proof.Laws.ReservedBytes
end

