-- ==== Sys2Proof/Laws/Step.lean ====
section
/-! SUPPORT. What one action of the host, and so one step, can do. -/

namespace Sys2Proof.Machine

open Sys2Proof.Config

/-- Everything an action can do to a state `s` when it is not refused: the states `t` it can leave. -/
def ActEffect (s t : State) : Action → Prop
  | .loadHex b => b.length ≤ hexMax ∧ t = { s with hex := b }
  | .loadMnemonic b => b.length ≤ phraseMax ∧ t = { s with mni := b }
  | .writeCmd c => ExecEffect s t (decodeByte c)
  | .read r => ∃ v, s.readReg r = some v ∧ t = { s with reads := ⟨r, v⟩ :: s.reads }
  | .write _ => t = s
  | .reset => t = s.resetBlock
  | .resetDuring _ => t = s.resetBlock
  | .label _ => t = s
  | .ifGoto _ _ => ∃ before rest, t = { s with issued := before, pending := rest }

theorem effect_of_act {a : Action} {s t : State} (h : act a s = .next t) : ActEffect s t a := by
  cases a with
  | loadHex b =>
    simp only [act, loadHex] at h
    split at h <;> cases h
    exact ⟨‹_›, rfl⟩
  | loadMnemonic b =>
    simp only [act, loadMnemonic] at h
    split at h <;> cases h
    exact ⟨‹_›, rfl⟩
  | writeCmd c => exact effect_of_exec h
  | read r =>
    simp only [act, hostRead] at h
    split at h <;> cases h
    exact ⟨_, ‹_›, rfl⟩
  | write r => cases h; rfl
  | reset => cases h; rfl
  | resetDuring c => cases h; rfl
  | label l => cases h; rfl
  | ifGoto f l =>
    simp only [act, hostIf, hostGoto] at h
    split at h
    · split at h
      · split at h <;> cases h
        exact ⟨_, _, rfl⟩
      · cases h; exact ⟨_, _, rfl⟩
    · cases h

/-- One step either finds no action and changes nothing, or is the effect of the next action. -/
theorem step_cases {s t : State} (h : step s = .next t) :
    (s.pending = [] ∧ t = s) ∨ ∃ a rest, s.pending = a :: rest ∧ ActEffect (s.issue a rest) t a := by
  unfold step hostStep at h
  split at h
  · cases h; exact .inl ⟨‹_›, rfl⟩
  · exact .inr ⟨_, _, ‹_›, effect_of_act h⟩

end Sys2Proof.Machine
end

