-- ==== Sys2Proof/Machine/Script.lean ====
section
/-! DEFINITION. The host syntax and the pseudo-operations as lists of actions (spec/30_encoding.md R78, R79). -/

namespace Sys2Proof.Machine

/-- The ASCII code of a character (R11); a character outside ASCII has none (DESIGN CHOICE, log entry 22). -/
def asciiByte (c : Char) : Option Byte := if c.toNat < 128 then some (BitVec.ofNat 8 c.toNat) else none

/-- The ASCII bytes of a text, as `LOADHEX` and `LOADMN` present it (R78, R11). R78 does not say what they present of a
text with a character outside ASCII; the model gives such a text no bytes (DESIGN CHOICE, log entry 22). -/
def textBytes (t : String) : Option Bytes := t.toList.mapM asciiByte

/-- `CMD <mnemonic>`: a write of the byte of R72 (R78). -/
def cmd (i : Instr) : Action := .writeCmd (encode i)

/-- `encode(entropyHex)` (R79). -/
def encodeHexScript (text : Bytes) : List Action := [.loadHex text, cmd .encodeHex, .read (.out .status)]

/-- `encode()` (R79). -/
def encodeRngScript : List Action := [cmd .encodeRng, .read (.out .status)]

/-- `decodeAndValidate(mnemonic)` (R79). -/
def validateScript (phrase : Bytes) : List Action := [.loadMnemonic phrase, cmd .validate, .read (.out .status)]

/-- `decodeAndValidate(mnemonic)` for a caller that also wants `ENT` (R79). -/
def decodeScript (phrase : Bytes) : List Action := [.loadMnemonic phrase, cmd .decode, .read (.out .status)]

/-- The part of `deriveKey(mnemonic)` that drives the block (R79). -/
def deriveKeyPrefix (phrase : Bytes) : List Action :=
  [.loadMnemonic phrase, cmd .validate, cmd .decode, .read (.out .saltv), .read (.out .seedv)]

/-- The result for the caller of `encode`: the phrase, or the code of the failure kind (R79). -/
def State.encodeResult (s : State) : Except (BitVec 4) (Option Bytes) :=
  if s.flag .errf then .error s.err else .ok s.mno

/-- The result for the caller of `decodeAndValidate`: `true`, or the code of the failure kind (R79). -/
def State.validateResult (s : State) : Except (BitVec 4) Bool :=
  if s.flag .valid then .ok true else .error s.err

end Sys2Proof.Machine
end

