-- ==== Sys2Proof/Tests/Slice0.lean ====
section
/-! SUPPORT. The model's own tests, with expected values from spec/95_test_vectors.md, and a witness for each statement's hypotheses. -/

namespace Sys2Proof.Tests

open Sys2Proof.Machine Sys2Proof.Config

/-! ### Helpers -/

/-- The reset state with the fixture Wordlist `TW` in the ROM (A-TW). -/
def base : State := { State.reset with wl := fixtureWordlist }

/-- The state an outcome holds, if it is a next state. -/
def stateOf : Host.Outcome State Fault Refusal → Option State
  | .next s => some s
  | .fault _ => none
  | .refused _ => none

/-- The phrase of an index list under `TW`. -/
def phrase (is : List Nat) : Bytes := joinWords (is.map fixtureWord)

/-- The phrase of T0: thirteen times index 0, then `k`. -/
def zerosThen (k : Nat) : Bytes := phrase (List.replicate 13 0 ++ [k])

/-- `n` characters `'0'`. -/
def zeros (n : Nat) : Bytes := List.replicate n 0x30#8

/-! ### Encoding: the words of R72, written out bit by bit, and the checks of well-formedness -/

theorem test_decode_nop : decodeByte 0b00000000#8 = .nop := by decide
theorem test_decode_encodeRng : decodeByte 0b00000001#8 = .encodeRng := by decide
theorem test_decode_encodeHex : decodeByte 0b00001001#8 = .encodeHex := by decide
theorem test_decode_decode : decodeByte 0b00000010#8 = .decode := by decide
theorem test_decode_validate : decodeByte 0b00000011#8 = .validate := by decide
theorem test_decode_clear : decodeByte 0b00000100#8 = .clear := by decide
theorem test_decode_reserved_rsv : decodeByte 0b00010001#8 = .reserved 0x11#8 := by decide
theorem test_decode_reserved_op : decodeByte 0b00000101#8 = .reserved 0x05#8 := by decide
theorem test_decode_reserved_p : decodeByte 0b00001010#8 = .reserved 0x0A#8 := by decide
theorem test_encode_encodeHex : encode .encodeHex = 0x09#8 := by decide
theorem test_table_word : decodeTableWord 8 0x09 = some .encodeHex := by decide
theorem test_wf_refuses_legal_bytes :
    ([0x00#8, 0x01#8, 0x02#8, 0x03#8, 0x04#8, 0x09#8].map fun c => (Instr.reserved c).wf) = List.replicate 6 false := by decide
theorem test_wf_accepts_reserved : (([0x10#8, 0x05#8, 0x08#8, 0xFF#8] : List Byte).map fun c => (Instr.reserved c).wf)
    = List.replicate 4 true := by decide
/-- R74 counts 250 reserved bytes. -/
theorem test_reserved_count : ((List.range 256).filter fun n => isReserved (BitVec.ofNat 8 n)).length = 250 := by decide +kernel

/-! ### SHA-256: the anchors of A-SHA -/

theorem test_sha_empty : (sha256 []).toList.take 4 = [0xe3#8, 0xb0#8, 0xc4#8, 0x42#8] := by decide +kernel
theorem test_sha_abc : (sha256 [0x61#8, 0x62#8, 0x63#8]).toList =
    [0xba, 0x78, 0x16, 0xbf, 0x8f, 0x01, 0xcf, 0xea, 0x41, 0x41, 0x40, 0xde, 0x5d, 0xae, 0x22, 0x23, 0xb0, 0x03, 0x61, 0xa3,
      0x96, 0x17, 0x7a, 0x9c, 0xb4, 0x10, 0xff, 0x61, 0xf2, 0x00, 0x15, 0xad] := by decide +kernel
theorem test_sha_149 : (sha256 (zeros 149)).toList.take 4 = [0xad#8, 0xfe#8, 0x06#8, 0x11#8] := by decide +kernel

/-! ### Units -/

/-- H2 to H4, H5, H7, H14 to H17. -/
theorem test_hexCheck : hexCheck (zeros 38) = false ∧ hexCheck (zeros 39) = true ∧ hexCheck (zeros 64) = true ∧
    hexCheck (zeros 38 ++ [0x67#8]) = false ∧ hexCheck ([0x30#8, 0x78#8] ++ zeros 39) = false ∧
    ([0x2F#8, 0x3A#8, 0x40#8, 0x60#8].all fun c => !hexCheck (zeros 38 ++ [c])) = true := by decide
theorem test_hexVal : [0x30#8, 0x39#8, 0x41#8, 0x61#8, 0x46#8, 0x66#8].map hexVal =
    [some 0, some 9, some 10, some 10, some 15, some 15] := by decide
/-- `HexToBits("a5F") = 101001011111`. -/
theorem test_hexToBits : hexToBits [0x61#8, 0x35#8, 0x46#8] =
    [true, false, true, false, false, true, false, true, true, true, true, true] := by decide
/-- E3, E4 and E5. -/
theorem test_trunc : trunc149 (hexToBits (zeros 37 ++ [0x38#8, 0x30#8])) = 1#149 ∧
    trunc149 (hexToBits (zeros 37 ++ [0x37#8, 0x66#8])) = 0#149 ∧
    trunc149 (hexToBits (0x38#8 :: zeros 38)) = 1#149 <<< 148 := by decide +kernel
theorem test_bytesToBits : bytesToBits [0x80#8, 0x01#8] =
    [true, false, false, false, false, false, false, false, false, false, false, false, false, false, false, true] := by decide
theorem test_ascii : ascii [false, true, true, false] = [0x30#8, 0x31#8, 0x31#8, 0x30#8] := by decide
/-- K1, and `Verify` on its string and on one other suffix. -/
theorem test_checksum_zeros : checksum 0#149 = 0b10101#5 := by decide +kernel
theorem test_verify_zeros : verify 21#154 = true := by decide +kernel
theorem test_verify_wrong : verify 0#154 = false := by decide +kernel
/-- K3. -/
theorem test_checksum_one : checksum 1#149 = 0b10100#5 := by decide +kernel
theorem test_slice : slice11 21#154 13 = 21 ∧ slice11 21#154 12 = 0 ∧ slice11 (1#154 <<< 153) 0 = 1024 := by decide
/-- The rows of the `Split` table: two spaces, leading, trailing, empty, tab. -/
theorem test_split : splitWords [0x61#8, 0x20#8, 0x20#8, 0x62#8] = [[0x61#8], [], [0x62#8]] ∧
    splitWords [0x20#8, 0x61#8] = [[], [0x61#8]] ∧ splitWords [0x61#8, 0x20#8] = [[0x61#8], []] ∧ splitWords [] = [[]] ∧
    splitWords [0x61#8, 0x09#8, 0x62#8] = [[0x61#8, 0x09#8, 0x62#8]] := by decide
theorem test_lookup : wordToIdx fixtureWordlist (fixtureWord 21) = some 21 ∧
    wordToIdx fixtureWordlist (fixtureWord 2047) = some 2047 ∧ wordToIdx fixtureWordlist (fixtureWord 2048) = none ∧
    wordToIdx fixtureWordlist [] = none := by decide +kernel
theorem test_idxToBits : idxToBits 21 = [false, false, false, false, false, false, true, false, true, false, true] := by decide
/-- `MapOut(0^149 10101)`, and `MapIn` of the phrase of `[0×14]` (R131: the checksum is not looked at). -/
theorem test_mapOut : mapOut fixtureWordlist 21#154 = zerosThen 21 := by decide +kernel
theorem test_mapIn : (match mapIn fixtureWordlist (zerosThen 0) with | .ok f => f == 0#154 | .error _ => false) = true := by
  decide +kernel
theorem test_views : saltOf 21#154 = 0#77 ∧ seedOf 21#154 = 21#77 ∧ entOf 21#154 = 0#149 ∧ chkOf 21#154 = 0b10101#5 := by
  decide
theorem test_register_numbers : [HostReg.cmd, .out .status, .out .err, .hex, .mni, .out .full, .out .mno].map HostReg.number =
    [some 0, some 1, some 2, some 3, some 4, some 5, some 6] := by decide
theorem test_textBytes : textBytes "a5F" = some [0x61#8, 0x35#8, 0x46#8] := by decide +kernel
/-- No byte is made up for U+0130, whose low byte is the code of a digit. -/
theorem test_textBytes_not_ascii : textBytes "a\u0130" = none := by decide +kernel

/-! ### Commands -/

/-- V1. -/
theorem test_encodeHex_v1 : (stateOf (exec .encodeHex { base with hex := zeros 39 })).map (fun t => (t.full, t.status, t.err)) =
    some (some 21#154, 0x0D#8, 0#4) := by decide +kernel
/-- H1: an empty `HEX` does not fall back to the random path. -/
theorem test_encodeHex_empty : (stateOf (exec .encodeHex base)).map (fun t => (t.status, t.err)) = some (0x03#8, 1#4) := by
  decide +kernel
/-- V7: the draw is 32 bytes 0x00; indices 0 and 13 are 819 and 1092. -/
theorem test_encodeRng_v7 : (stateOf (exec .encodeRng { base with rngPort := [Vector.replicate 32 0x00#8] })).map
    (fun t => (t.idx 0, t.idx 13)) = some (some 819, some 1092) := by decide +kernel
/-- P5: the host's draw is spent, and rubbish in `HEX` is not looked at. -/
theorem test_encodeRng_spends : (stateOf (exec .encodeRng
    { base with rngPort := [Vector.replicate 32 0x00#8], hex := [0x7A#8, 0x7A#8] })).map
    (fun t => (t.rngPort, t.hex, t.err)) = some ([], [0x7A#8, 0x7A#8], 0#4) := by decide +kernel
/-- T0. -/
theorem test_decode_t0 : (stateOf (exec .decode { base with mni := zerosThen 21 })).map (fun t => (t.full, t.status)) =
    some (some 21#154, 0x15#8) := by decide +kernel
/-- X10: fourteen tokens, the seventh empty. -/
theorem test_decode_x10 : (stateOf (exec .decode
    { base with mni := joinWords (List.replicate 6 (fixtureWord 0) ++ [[]] ++ List.replicate 7 (fixtureWord 0)) })).map
    (fun t => (t.status, t.err)) = some (0x03#8, 3#4) := by decide +kernel
/-- T2. -/
theorem test_validate_t2 : (stateOf (exec .validate { base with mni := zerosThen 20 })).map
    (fun t => (t.full, t.status, t.err)) = some (none, 0x23#8, 4#4) := by decide +kernel
/-- X2: thirteen words. -/
theorem test_validate_x2 : (stateOf (exec .validate { base with mni := phrase (List.replicate 13 0) })).map
    (fun t => (t.status, t.err)) = some (0x23#8, 2#4) := by decide +kernel
/-- Y1 and Y2. -/
theorem test_nop_keeps : (stateOf (exec .nop (base.commitEncode 21 (zerosThen 21)))).map (fun t => (t.status, t.full)) =
    some (0x0D#8, some 21#154) := by decide +kernel
theorem test_clear : (stateOf (exec .clear (base.commitEncode 21 (zerosThen 21)))).map (fun t => (t.status, t.full, t.mno)) =
    some (0x00#8, none, none) := by decide +kernel
/-- Y3. -/
theorem test_reserved : (stateOf (exec (.reserved 0x08#8) (base.commitEncode 21 (zerosThen 21)))).map
    (fun t => (t.status, t.err, t.mno)) = some (0x03#8, 8#4, none) := by decide +kernel
/-- The first step after reset runs the command placed there. -/
theorem test_step_runs : (stateOf (step (State.reset.withFetchWord 8 0x09))).map (fun t => (t.status, t.err)) =
    some (0x03#8, 1#4) := by decide +kernel
/-- Y5, and a read of an output that holds no value. -/
theorem test_read_cmd : (stateOf (act (.read .cmd) base)).map (fun t => t.reads) = some [⟨.cmd, .bits 8 0x00#8⟩] := by
  decide +kernel
theorem test_read_none : act (.read (.out .full)) State.reset = .refused (.noValue (.out .full)) := rfl

/-! ### Witnesses: for each statement with hypotheses, a state and operands that meet them all -/

/-- `FULL` and `MNO` of V1 in the outputs. -/
def delivered : State := base.commitEncode 21 (mapOut fixtureWordlist 21)

/-- The phrase of T0 in `MNI`. -/
def withPhrase : State := { base with mni := mapOut fixtureWordlist 21 }

/-- A host program `label 7; NOP; label 8`, of which the first two actions are behind, with `STATUS = 0x0D` read. -/
def branching : State :=
  { base with issued := [.writeCmd 0x00, .label 7], pending := [.label 8, .writeCmd 0x04],
              reads := [⟨.out .status, .bits 8 0x0D#8⟩] }

theorem delivered_stateInv : StateInv delivered := by
  constructor <;> simp [delivered, base, State.reset, State.flag, test_verify_zeros]; decide

theorem base_stateInv : StateInv base := by
  constructor <;> simp [base, State.reset, State.flag] <;> decide

theorem witness_OpcodeMapComplete : 0x05#8 ∉ [0x00#8, 0x01#8, 0x09#8, 0x02#8, 0x03#8, 0x04#8] := by decide
theorem witness_DecodeEncodeAgree : (Instr.reserved 0xFF#8).wf = true ∧ Instr.clear.wf = true := by decide
theorem witness_StepRunsDecodedCommand :
    ({ base with pending := [.writeCmd 0x04#8] } : State).pending = .writeCmd 0x04#8 :: [] ∧
      ({ base with pending := [.reset, .label 7] } : State).pending = .reset :: [.label 7] ∧ base.pending = [] ∧
      0 < 256 ∧ 255 < 256 := by decide
theorem witness_ReservedByteFails : isReserved 0x05#8 = true ∧ isReserved 0x08#8 = true ∧ isReserved 0x10#8 = true := by decide
theorem witness_EncodeHexDelivers : 39 ≤ (zeros 39).length ∧ ∀ c ∈ zeros 39, isHexDigit c = true := by decide
theorem witness_EncodeHexRejects_short : (zeros 38).length < 39 := by decide
theorem witness_EncodeHexRejects_digit : ∃ c ∈ zeros 38 ++ [0x47#8], isHexDigit c = false := by decide
theorem witness_EncodeRngDelivers : base.rngPort = [] := rfl
theorem witness_DecodeDelivers : WordlistOk withPhrase.wl ∧ withPhrase.mni = mapOut withPhrase.wl 21 ∧ verify 21 = true :=
  ⟨fixtureWordlist_ok, rfl, test_verify_zeros⟩
theorem witness_ValidateDelivers : WordlistOk withPhrase.wl ∧ withPhrase.mni = mapOut withPhrase.wl 21 ∧ verify 21 = true :=
  ⟨fixtureWordlist_ok, rfl, test_verify_zeros⟩
/-- The three conditions of the chain in `DecodeOutcomes` and `ValidateOutcomes`, each met by a text. -/
theorem witness_DecodeOutcomes_count : (phrase (List.replicate 13 0)).count 0x20#8 ≠ 13 := by decide
theorem witness_DecodeOutcomes_unknown : (List.replicate 13 0x20#8).count 0x20#8 = 13 ∧
    ∃ t ∈ splitWords (List.replicate 13 0x20#8), t ∉ fixtureWordlist.toList :=
  ⟨by decide, [], by decide, fun h => (fixtureWordlist_ok.2 [] h).1 rfl⟩
theorem witness_DecodeOutcomes_known : (zerosThen 20).count 0x20#8 = 13 ∧
    ¬ ∃ t ∈ splitWords (zerosThen 20), t ∉ fixtureWordlist.toList := by decide +kernel
theorem witness_DecodeAcceptsExactlyPhrases : WordlistOk base.wl := fixtureWordlist_ok
/-- The phrase can be loaded into a state that holds another string, or none. -/
theorem witness_RoundTrip : WordlistOk ({ base with hex := zeros 39 } : State).wl ∧ hexCheck (zeros 39) = true ∧
    base.wl = fixtureWordlist ∧ delivered.wl = fixtureWordlist :=
  ⟨fixtureWordlist_ok, by decide, rfl, rfl⟩
theorem witness_OutcomeTable : verify 0 = false := test_verify_wrong
theorem witness_CommandFrame : exec .nop base = .next base ∧ Instr.nop ≠ .clear ∧ Instr.nop ≠ .encodeRng :=
  ⟨rfl, by decide, by decide⟩
theorem witness_NoCommandReadsHistory :
    (base.wl = delivered.wl ∧ base.takeDraw.1 = delivered.takeDraw.1) ∧ base.hex = delivered.hex ∧ base.mni = delivered.mni ∧
      base.status ≠ delivered.status := ⟨⟨rfl, rfl⟩, rfl, rfl, by decide⟩
/-- Two states that differ in every output and in nothing else. -/
theorem witness_NoCommandReadsHistory_outputs : Instr.clear ≠ .nop ∧ SameInputs base delivered ∧ SameOutside base delivered ∧
    base.full ≠ delivered.full ∧ base.mno ≠ delivered.mno :=
  ⟨by decide, ⟨rfl, rfl, rfl, rfl, rfl⟩, ⟨rfl, rfl, rfl, rfl, rfl, rfl⟩, by simp [base, delivered, State.reset],
    by simp [base, delivered, State.reset]⟩
theorem witness_RepeatedCommandSameState : Instr.encodeHex ≠ .encodeRng := by decide
theorem witness_OnlyKnownCodesWritten : Instr.validate ≠ .nop := by decide
theorem witness_EveryStepKeepsInv : StateInv { base with pending := [.writeCmd 0x00#8] } ∧
    step { base with pending := [.writeCmd 0x00#8] } = .next (base.issue (.writeCmd 0x00#8) []) :=
  ⟨by constructor <;> simp [base, State.reset, State.flag] <;> decide, rfl⟩
theorem witness_ReachableStatesMeetInv : SameBlock base State.reset ∧ Host.Core.run core 1 base = .next base :=
  ⟨⟨⟨rfl, rfl, rfl, rfl⟩, rfl, rfl⟩, rfl⟩
theorem witness_WordlistImmutable : Host.Core.run core 1 base = .next base := rfl
theorem witness_PhraseLengthBounds :
    StateInv delivered ∧ WordlistOk delivered.wl ∧ delivered.mno = some (mapOut fixtureWordlist 21) :=
  ⟨delivered_stateInv, fixtureWordlist_ok, rfl⟩
theorem witness_HostReadsAndWrites : delivered.full = some 21 ∧ delivered.mno = some (mapOut fixtureWordlist 21) ∧
    base.full = none ∧ base.mno = none := ⟨rfl, rfl, rfl, rfl⟩
theorem witness_ReadableUnderFlag : StateInv delivered ∧ StateInv base ∧ OutReg.ent ∈ [OutReg.full, .ent, .chk, .saltv, .seedv] :=
  ⟨delivered_stateInv, base_stateInv, by decide⟩
theorem witness_FirstCommandAfterReset : SameBlock State.reset State.reset := ⟨⟨rfl, rfl, rfl, rfl⟩, rfl, rfl⟩
/-- Forward to label 8 (flag `DONE` is 1), backward to label 7, and not taken on `ERRF`. -/
theorem witness_HostBranch : branching.lastStatus = some 0x0D#8 ∧ flagOf .done 0x0D#8 = true ∧ flagOf .errf 0x0D#8 = false ∧
    branching.issued.reverse ++ branching.pending = [.label 7, .writeCmd 0x00#8] ++ .label 8 :: [.writeCmd 0x04#8] ∧
    Action.label 8 ∉ [.label 7, .writeCmd 0x00#8] ∧
    branching.issued.reverse ++ branching.pending = [] ++ .label 7 :: [.writeCmd 0x00#8, .label 8, .writeCmd 0x04#8] ∧
    Action.label 7 ∉ [] := by decide
theorem witness_views : base.full = none ∧ delivered.full = some 21 := ⟨rfl, rfl⟩
theorem witness_HexDigitValues : 0x30 ≤ (0x39#8).toNat ∧ (0x39#8).toNat ≤ 0x39 ∧ 0x41 ≤ (0x46#8).toNat ∧ (0x46#8).toNat ≤ 0x46 ∧
    0x61 ≤ (0x66#8).toNat ∧ (0x66#8).toNat ≤ 0x66 ∧ isHexDigit 0x3A#8 = false := by decide
theorem witness_HexTextToBits_all : (zeros 3).all isHexDigit = true ∧ (zeros 3)[2]? = some 0x30#8 := by decide
theorem witness_HexTextToBits_pairs : [(0x61#8, 0x35#8)].map (fun x => (hexVal x.1, hexVal x.2)) =
    [(10, 5)].map (fun v : Nat × Nat => (some v.1, some v.2)) := by decide
theorem witness_HexTextToBits_odd : hexCheck (zeros 38 ++ [0x46#8]) = true := by decide
/-- The texts of E1 and E4: characters 0 to 36 agree, character 37 is below 8 in both. -/
theorem witness_WhichSymbolsMatter : hexCheck (zeros 39) = true ∧ hexCheck (zeros 37 ++ [0x37#8, 0x66#8]) = true ∧
    (∀ j < 37, ((zeros 39)[j]?).map hexVal = ((zeros 37 ++ [0x37#8, 0x66#8])[j]?).map hexVal) ∧
    (zeros 39)[37]? = some 0x30#8 ∧ (zeros 37 ++ [0x37#8, 0x66#8])[37]? = some 0x37#8 ∧
    hexVal 0x30#8 = some 0 ∧ hexVal 0x37#8 = some 7 ∧ (8 ≤ 0 ↔ 8 ≤ 7) := by decide
theorem witness_LookupIsExact : WordlistOk fixtureWordlist ∧ wordMax < (fixtureWord 0 ++ fixtureWord 0).length :=
  ⟨fixtureWordlist_ok, by decide⟩
theorem witness_IndexBitsInverse : (List.replicate 11 true).length = 11 ∧ (2047 : Index).val = val (List.replicate 11 true) := by
  decide
theorem witness_WordMapperInverse : WordlistOk fixtureWordlist ∧
    ∃ full, mapIn fixtureWordlist (zerosThen 0) = .ok full := by
  refine ⟨fixtureWordlist_ok, ?_⟩
  have h := test_mapIn
  split at h
  · exact ⟨_, ‹_›⟩
  · cases h

end Sys2Proof.Tests
end

section
/-! SUPPORT. The state of the block (spec/10_state.md): substrings of a register, the views of `FULL` (R26, R27), the reset
values (R38), and that no command reads a flag or an earlier result (R33). -/

namespace Sys2Proof.Machine

/-! ### Substrings of a register (R9) -/

/-- A substring of a substring is a substring of the register. -/
theorem sub_of_sub {n : Nat} (v : BitVec n) {a len b len' : Nat} (h : a + len ≤ n) (h' : b + len' ≤ len) :
    sub (sub v a len) b len' = sub v (a + b) len' := by
  refine BitVec.eq_of_getMsbD_eq fun j hj => ?_
  rw [getMsbD_sub _ h' hj, getMsbD_sub v h (by omega), getMsbD_sub v (by omega) hj, Nat.add_assoc]

/-- Two neighbouring substrings make one. -/
theorem sub_append_sub {n : Nat} (v : BitVec n) {a len len' : Nat} (h : a + len + len' ≤ n) :
    sub v a len ++ sub v (a + len) len' = sub v a (len + len') := by
  apply bitsOf_injective
  rw [bitsOf_append, bitsOf_sub v (by omega), bitsOf_sub v h, bitsOf_sub v (by omega), List.take_add, List.drop_drop]

/-- The value of two registers side by side. -/
theorem toNat_append_eq {m n : Nat} (v : BitVec m) (w : BitVec n) : (v ++ w).toNat = v.toNat * 2 ^ n + w.toNat := by
  rw [← val_bitsOf, bitsOf_append, val_append, val_bitsOf, val_bitsOf, length_bitsOf]

/-! ### The views of `FULL` (R26, R27, R170, R171) -/

section Views

variable {s : State}

theorem State.ent_of_none (h : s.full = none) : s.ent = none := by rw [State.ent, h, Option.map_none]
theorem State.chk_of_none (h : s.full = none) : s.chk = none := by rw [State.chk, h, Option.map_none]
theorem State.idx_of_none (h : s.full = none) (k : Fin 14) : s.idx k = none := by rw [State.idx, h, Option.map_none]
theorem State.saltv_of_none (h : s.full = none) : s.saltv = none := by rw [State.saltv, h, Option.map_none]
theorem State.seedv_of_none (h : s.full = none) : s.seedv = none := by rw [State.seedv, h, Option.map_none]

variable {f : BitVec 154}

theorem State.ent_of_some (h : s.full = some f) : s.ent = some (entOf f) := by rw [State.ent, h, Option.map_some]
theorem State.chk_of_some (h : s.full = some f) : s.chk = some (chkOf f) := by rw [State.chk, h, Option.map_some]
theorem State.idx_of_some (h : s.full = some f) (k : Fin 14) : s.idx k = some (slice11 f k) := by
  rw [State.idx, h, Option.map_some]

end Views

theorem getMsbD_entOf (f : BitVec 154) {j : Nat} (hj : j < 149) : (entOf f).getMsbD j = f.getMsbD j := by
  rw [entOf, getMsbD_sub f (by omega) hj, Nat.zero_add]

theorem getMsbD_chkOf (f : BitVec 154) {j : Nat} (hj : j < 5) : (chkOf f).getMsbD j = f.getMsbD (149 + j) :=
  getMsbD_sub f (by omega) hj

/-- `IDX[k]` is the value of the symbols `11k` to `11k + 10` of `FULL` (R27). -/
theorem val_slice11 (f : BitVec 154) (k : Fin 14) :
    (slice11 f k).val = val ((bitsOf f).drop (11 * k.val) |>.take 11) := by
  rw [← bitsOf_sub f (by omega), val_bitsOf, slice11]

/-- `MapOut` joins the words of the fourteen views (R123). -/
theorem mapOut_eq_joinWords (wl : Wordlist) (f : BitVec 154) :
    mapOut wl f = joinWords (List.ofFn fun k => wl[slice11 f k]) := by
  rw [mapOut, indicesOf, List.map_ofFn]
  rfl

/-- The first thirteen views lie in `ENT` (R27). -/
theorem slice11_castSucc (f : BitVec 154) (k : Fin 13) :
    (slice11 f k.castSucc).val = (sub (entOf f) (11 * k.val) 11).toNat := by
  rw [entOf, sub_of_sub f (by omega) (by omega), Nat.zero_add]
  rfl

/-- `IDX[13]` is the last six symbols of `ENT` followed by `CHK` (R27). -/
theorem slice11_last (f : BitVec 154) :
    (slice11 f 13).val = 32 * (sub (entOf f) 143 6).toNat + (chkOf f).toNat := by
  have hsplit : sub f 143 6 ++ sub f 149 5 = sub f 143 11 := sub_append_sub f (by omega)
  calc (slice11 f 13).val = (sub f 143 6 ++ sub f 149 5).toNat := by rw [hsplit]; rfl
    _ = 32 * (sub f 143 6).toNat + (sub f 149 5).toNat := by rw [toNat_append_eq, Nat.mul_comm]; rfl
    _ = 32 * (sub (entOf f) 143 6).toNat + (chkOf f).toNat := by rw [entOf, sub_of_sub f (by omega) (by omega)]; rfl

/-! ### A command in a state with other outputs (R33) -/

/-- `s` with any `STATUS`, `ERR`, `FULL` and `MNO` in place of its own. -/
def State.withOutputs (s : State) (st : BitVec 8) (e : BitVec 4) (f : Option (BitVec 154)) (m : Option Bytes) : State :=
  { s with status := st, err := e, full := f, mno := m }

/-- States that agree in everything but the outputs differ by `withOutputs`. -/
theorem State.eq_withOutputs {s s' : State} (hin : SameInputs s s') (hout : SameOutside s s') :
    s' = s.withOutputs s'.status s'.err s'.full s'.mno := by
  obtain ⟨hhex, hmni, hwl, hport, hcount⟩ := hin
  obtain ⟨-, -, -, hpending, hissued, hreads⟩ := hout
  rw [State.withOutputs, hhex, hmni, hwl, hport, hcount, hpending, hissued, hreads]

section WithOutputs

variable (s : State) (st : BitVec 8) (e : BitVec 4) (f : Option (BitVec 154)) (m : Option Bytes)

@[simp] theorem State.withOutputs_hex : (s.withOutputs st e f m).hex = s.hex := rfl
@[simp] theorem State.withOutputs_mni : (s.withOutputs st e f m).mni = s.mni := rfl
@[simp] theorem State.withOutputs_wl : (s.withOutputs st e f m).wl = s.wl := rfl

@[simp] theorem State.withOutputs_raise (b : Bool) (k : Kind) : (s.withOutputs st e f m).raise b k = s.raise b k := rfl

@[simp] theorem State.withOutputs_commitEncode (full : BitVec 154) (text : Bytes) :
    (s.withOutputs st e f m).commitEncode full text = s.commitEncode full text := rfl

@[simp] theorem State.withOutputs_commitDecode (full : BitVec 154) :
    (s.withOutputs st e f m).commitDecode full = s.commitDecode full := rfl

@[simp] theorem State.withOutputs_commitValidate : (s.withOutputs st e f m).commitValidate = s.commitValidate := rfl

@[simp] theorem State.withOutputs_commitClear : (s.withOutputs st e f m).commitClear = s.commitClear := rfl

@[simp] theorem State.withOutputs_encodeCore (ent : BitVec 149) :
    (s.withOutputs st e f m).encodeCore ent = s.encodeCore ent := by simp [State.encodeCore_eq]

/-- The draw does not look at the outputs and leaves them. -/
@[simp] theorem State.withOutputs_takeDraw :
    (s.withOutputs st e f m).takeDraw = (s.takeDraw.1, s.takeDraw.2.withOutputs st e f m) := by
  cases hport : s.rngPort <;> simp [State.takeDraw, State.withOutputs, hport]

/-- No command but `NOP` lets the outputs it found show in the state it leaves (R33). -/
theorem exec_withOutputs {i : Instr} (hi : i ≠ .nop) : exec i (s.withOutputs st e f m) = exec i s := by
  cases i with
  | nop => exact absurd rfl hi
  | encodeRng => simp [exec, execEncodeRng]
  | encodeHex => simp [exec, execEncodeHex]
  | decode => simp [exec, execDecode]
  | validate => simp [exec, execValidate]
  | clear => simp [exec, execClear]
  | reserved c => simp [exec, execReserved]

end WithOutputs

/-! ### What the outputs of a command depend on (R33) -/

theorem State.sameOutputs_raise (s s' : State) (b : Bool) (k : Kind) : SameOutputs (s.raise b k) (s'.raise b k) :=
  ⟨rfl, rfl, rfl, rfl⟩

theorem State.sameOutputs_commitDecode (s s' : State) (f : BitVec 154) :
    SameOutputs (s.commitDecode f) (s'.commitDecode f) := ⟨rfl, rfl, rfl, rfl⟩

theorem State.sameOutputs_commitValidate (s s' : State) : SameOutputs s.commitValidate s'.commitValidate :=
  ⟨rfl, rfl, rfl, rfl⟩

theorem State.sameOutputs_commitClear (s s' : State) : SameOutputs s.commitClear s'.commitClear := ⟨rfl, rfl, rfl, rfl⟩

/-- `EncodeCore` reports and delivers what the Wordlist and the entropy say. -/
theorem State.sameOutputs_encodeCore {s s' : State} (hwl : s.wl = s'.wl) (ent : BitVec 149) :
    SameOutputs (s.encodeCore ent) (s'.encodeCore ent) := by
  rw [State.encodeCore_eq, State.encodeCore_eq, hwl]
  exact ⟨rfl, rfl, rfl, rfl⟩

/-- Two states agree on what the command reads (R33): the draw, `HEX`, `MNI` or nothing, with the Wordlist where it is
used. `NOP` reports nothing of its own, so no agreement is enough for it. -/
def SameRead (s s' : State) : Instr → Prop
  | .nop => False
  | .encodeRng => s.wl = s'.wl ∧ s.takeDraw.1 = s'.takeDraw.1
  | .encodeHex => s.wl = s'.wl ∧ s.hex = s'.hex
  | .decode => s.wl = s'.wl ∧ s.mni = s'.mni
  | .validate => s.wl = s'.wl ∧ s.mni = s'.mni
  | .clear => True
  | .reserved _ => True

/-- A command reports and delivers the same in two states that agree on what it reads. -/
theorem sameOutputs_of_exec {i : Instr} {s s' t t' : State} (h : SameRead s s' i) (ht : exec i s = .next t)
    (ht' : exec i s' = .next t') : SameOutputs t t' := by
  cases i with
  | nop => exact h.elim
  | encodeRng =>
    obtain ⟨hwl, hdraw⟩ := h
    cases ht; cases ht'
    rw [hdraw]
    exact State.sameOutputs_encodeCore (by simpa using hwl) _
  | encodeHex =>
    obtain ⟨hwl, hhex⟩ := h
    cases ht; cases ht'
    rw [hhex]
    cases e2bHex s'.hex with
    | ok ent => exact State.sameOutputs_encodeCore hwl ent
    | error k => exact s.sameOutputs_raise s' false k
  | decode =>
    obtain ⟨hwl, hmni⟩ := h
    cases ht; cases ht'
    rw [hwl, hmni]
    cases decodeCore s'.wl s'.mni with
    | ok f => exact s.sameOutputs_commitDecode s' f
    | error k => exact s.sameOutputs_raise s' false k
  | validate =>
    obtain ⟨hwl, hmni⟩ := h
    cases ht; cases ht'
    rw [hwl, hmni]
    cases decodeCore s'.wl s'.mni with
    | ok f => exact s.sameOutputs_commitValidate s'
    | error k => exact s.sameOutputs_raise s' true k
  | clear =>
    cases ht; cases ht'
    exact s.sameOutputs_commitClear s'
  | reserved c =>
    cases ht; cases ht'
    exact s.sameOutputs_raise s' false .illegalCommand

/-- `CLEAR` empties both input buffers (R161). -/
theorem exec_clear_buffers {s t : State} (h : exec .clear s = .next t) : t.hex = [] ∧ t.mni = [] := by
  obtain rfl : t = s.commitClear := effect_of_exec h
  simp

/-- Every command but `CLEAR` keeps both input buffers (R23, R24). -/
theorem exec_keeps_buffers {i : Instr} {s t : State} (hi : i ≠ .clear) (h : exec i s = .next t) :
    t.hex = s.hex ∧ t.mni = s.mni := by
  have he := effect_of_exec h
  cases i <;> simp only [ExecEffect] at he
  case nop | reserved => subst he; simp
  case encodeRng => obtain ⟨f, -, rfl⟩ := he; simp
  case encodeHex => obtain ⟨f, -, rfl⟩ | rfl := he <;> simp
  case decode => obtain ⟨f, -, rfl⟩ | ⟨k, -, rfl⟩ := he <;> simp
  case validate => obtain rfl | ⟨k, -, rfl⟩ := he <;> simp
  case clear => exact absurd rfl hi

/-! ### The obligations -/

/-- Settles O21: a command other than `NOP` overwrites every output without looking at it (`exec_withOutputs`), and what it
writes there is fixed by what it reads (`sameOutputs_of_exec`). -/
theorem noCommandReadsHistory : Obligations.NoCommandReadsHistory := by
  refine ⟨fun _ => rfl, fun i s s' hi hin hout => ?_, fun i s s' h => ?_⟩
  · rw [State.eq_withOutputs hin hout, exec_withOutputs _ _ _ _ _ hi]
  · obtain ⟨t, ht, -⟩ := exec_effect i s
    obtain ⟨t', ht', -⟩ := exec_effect i s'
    have hread : SameRead s s' i := h
    refine ⟨t, t', ht, ht', sameOutputs_of_exec hread ht ht', ?_⟩
    split
    next hi =>
      subst hi
      obtain ⟨hhex, hmni⟩ := exec_clear_buffers ht
      exact ⟨hhex, hmni, exec_clear_buffers ht'⟩
    next hi =>
      obtain ⟨hhex, hmni⟩ := exec_keeps_buffers hi ht
      exact ⟨hhex, hmni, exec_keeps_buffers hi ht'⟩

/-- Settles O36. -/
theorem entAndChkViews : Obligations.EntAndChkViews := fun _ =>
  ⟨fun hnone => ⟨State.ent_of_none hnone, State.chk_of_none hnone⟩,
    fun f hsome => ⟨entOf f, chkOf f, State.ent_of_some hsome, State.chk_of_some hsome, (entOf_append_chkOf f).symm,
      fun _ hj => getMsbD_entOf f hj, fun _ hj => getMsbD_chkOf f hj⟩⟩

/-- Settles O37. -/
theorem indexViewsTile : Obligations.IndexViewsTile := fun _ =>
  ⟨fun hnone => State.idx_of_none hnone,
    fun f hsome => ⟨slice11 f, State.idx_of_some hsome, val_slice11 f, (fullOfIndices_indicesOf f).symm,
      fun wl => mapOut_eq_joinWords wl f, slice11_castSucc f, slice11_last f⟩⟩

/-- Settles O25: the latches are read off `State.reset` and `State.resetBlock`; the views follow from `FULL` being none. -/
theorem resetValues : Obligations.ResetValues := by
  have hfull : State.reset.full = none := rfl
  refine ⟨rfl, rfl, rfl, rfl, hfull, rfl, State.ent_of_none hfull, State.chk_of_none hfull, State.idx_of_none hfull,
    State.saltv_of_none hfull, State.seedv_of_none hfull, fun s => ⟨s.resetBlock, rfl, ?_⟩⟩
  simp

end Sys2Proof.Machine
end

section
/-! SUPPORT. The Wordlist ROM (spec/20_memory.md R66): what one action, one step and a run of steps leave in `WL`. -/

namespace Sys2Proof.Machine

/-! ### One step, and runs of steps -/

/-- With an action pending, a step is that action on the state that has issued it. -/
theorem step_of_cons {s : State} {a : Action} {rest : List Action} (h : s.pending = a :: rest) :
    step s = act a (s.issue a rest) := by
  simp only [step, hostStep, h]

/-- With no action pending, a step changes nothing. -/
theorem step_of_nil {s : State} (h : s.pending = []) : step s = .next s := by
  simp only [step, hostStep, h]

/-- A run of `k + 1` steps that ends is one step and a run of `k` steps. -/
theorem run_succ_next {k : Nat} {s t : State} (h : Host.Core.run core (k + 1) s = .next t) :
    ∃ u, step s = .next u ∧ Host.Core.run core k u = .next t := by
  simp only [Host.Core.run] at h
  split at h
  · exact ⟨_, ‹_›, h⟩
  · cases h
  · cases h

/-- What every step keeps, every run keeps. -/
theorem run_keeps {P : State → Prop} (hstep : ∀ s t, step s = .next t → P s → P t) {k : Nat} {s t : State}
    (hrun : Host.Core.run core k s = .next t) (hs : P s) : P t := by
  induction k generalizing s with
  | zero => cases hrun; exact hs
  | succ k ih =>
    obtain ⟨u, hu, hrest⟩ := run_succ_next hrun
    exact ih hrest (hstep s u hu hs)

/-! ### The frame of `WL` -/

/-- No action of the host writes the ROM: a command by the frame of commands, the others by what they can do. -/
theorem act_wl {a : Action} {s t : State} (h : act a s = .next t) : t.wl = s.wl := by
  have he := effect_of_act h
  cases a with
  | loadHex b => obtain ⟨-, rfl⟩ := he; rfl
  | loadMnemonic b => obtain ⟨-, rfl⟩ := he; rfl
  | writeCmd c =>
    obtain ⟨hwl, -⟩ := exec_outside (i := decodeByte c) h
    exact hwl
  | read r => obtain ⟨v, -, rfl⟩ := he; rfl
  | write r => obtain rfl : t = s := he; rfl
  | reset => obtain rfl : t = s.resetBlock := he; exact s.resetBlock_wl
  | resetDuring c => obtain rfl : t = s.resetBlock := he; exact s.resetBlock_wl
  | label l => obtain rfl : t = s := he; rfl
  | ifGoto f l => obtain ⟨before, rest, rfl⟩ := he; rfl

theorem step_wl {s t : State} (h : step s = .next t) : t.wl = s.wl := by
  cases hpending : s.pending with
  | nil => rw [step_of_nil hpending] at h; cases h; rfl
  | cons a rest =>
    rw [step_of_cons hpending] at h
    exact (act_wl h).trans (s.issue_wl a rest)

/-! ### The obligation -/

/-- Settles O29: the ROM holds what it held at the start, and every step keeps that (`step_wl`, `run_keeps`). -/
theorem wordlistImmutable : Obligations.WordlistImmutable := fun s _ _ hrun =>
  run_keeps (P := fun u => u.wl = s.wl) (fun _ _ h hkept => (step_wl h).trans hkept) hrun rfl

end Sys2Proof.Machine
end

section
/-! SUPPORT. The command byte (spec/30_encoding.md): format `C` (R71), the map of R72 and the reserved bytes of R74. -/

namespace Sys2Proof

/-- A byte is its three fields of format `C`, side by side (R71). -/
theorem fields_append (c : Byte) : fieldRsv c ++ fieldP c ++ fieldOp c = c :=
  calc fieldRsv c ++ fieldP c ++ fieldOp c
    _ = c.extractLsb' 3 5 ++ c.extractLsb' 0 3 := by
      rw [fieldRsv, fieldP, fieldOp, BitVec.extractLsb'_append_extractLsb'_eq_extractLsb' (by rfl)]
    _ = c.extractLsb' 0 8 := BitVec.extractLsb'_append_extractLsb'_eq_extractLsb' (by rfl)
    _ = c := BitVec.extractLsb'_eq_self

/-- The three conditions of R74, none of them met. -/
theorem not_isReserved_iff {c : Byte} :
    isReserved c ≠ true ↔
      fieldRsv c = 0b0000#4 ∧ fieldOp c ∉ [0b101#3, 0b110#3, 0b111#3] ∧ (fieldP c = 0b1#1 → fieldOp c = 0b001#3) := by
  simp [isReserved, and_assoc]

/-- With `RSV = 0000`, the values of `P` and `OP` that R74 leaves are the rows of the map of R72. -/
theorem mem_opcodeMap_of_not_isReserved {c : Byte} (h : isReserved c ≠ true) :
    c ∈ [0x00#8, 0x01#8, 0x09#8, 0x02#8, 0x03#8, 0x04#8] := by
  obtain ⟨hrsv, hop, hp⟩ := not_isReserved_iff.mp h
  have hrows : ∀ (p : BitVec 1) (op : BitVec 3), op ∉ [0b101#3, 0b110#3, 0b111#3] → (p = 0b1#1 → op = 0b001#3) →
      0b0000#4 ++ p ++ op ∈ [0x00#8, 0x01#8, 0x09#8, 0x02#8, 0x03#8, 0x04#8] := by decide
  rw [← fields_append c, hrsv]
  exact hrows _ _ hop hp

/-- A reserved byte has the fields of no row of the map, so it decodes as reserved (R74). -/
theorem decodeByte_of_isReserved {c : Byte} (h : isReserved c = true) : decodeByte c = .reserved c := by
  unfold decodeByte
  split
  case h_7 => rfl
  all_goals
    rename_i hrsv hp hop
    exact absurd h (not_isReserved_iff.mpr (by rw [hrsv, hp, hop]; decide))

/-- Settles O1: the six rows are evaluated; a byte that is not a row is reserved (`mem_opcodeMap_of_not_isReserved`) and
decodes as such (`decodeByte_of_isReserved`). -/
theorem opcodeMapComplete : Obligations.OpcodeMapComplete := by
  refine ⟨rfl, rfl, rfl, rfl, rfl, rfl, fun c hc => ?_⟩
  have hreserved : isReserved c = true := not_not.mp (mt mem_opcodeMap_of_not_isReserved hc)
  exact ⟨hreserved, decodeByte_of_isReserved hreserved⟩

end Sys2Proof
end

section
/-! SUPPORT. The entropy converter (spec/40_entropy_to_bits.md): which byte or character a symbol comes from (R92, R94),
which symbols reach `ENT` (R96, R97), and that `ENCODE.HEX` reads nothing else of `HEX`. -/

namespace Sys2Proof.Machine

/-! ### Bytes to bits (R94) -/

/-- The value of a register, written in its width, gives back the register's symbols (R10). -/
theorem bin_toNat {n : Nat} (v : BitVec n) : bin n v.toNat = bitsOf v := by rw [bin, BitVec.ofNat_toNat, BitVec.setWidth_eq]

@[simp] theorem bytesToBits_cons (c : Byte) (b : Bytes) : bytesToBits (c :: b) = bitsOf c ++ bytesToBits b := by
  rw [bytesToBits, List.flatMap_cons, bin_toNat, bytesToBits]

/-- Symbol `j` comes from byte `j / 8`, most significant bit first. -/
theorem getElem?_bytesToBits (b : Bytes) (j : Nat) :
    (bytesToBits b)[j]? = (b[j / 8]?).map fun c => c.getMsbD (j % 8) := by
  have hbit : j % 8 < 8 := Nat.mod_lt j (by omega)
  rw [bytesToBits, getElem?_flatMap_groups 8 (by omega) _ b fun c _ => length_bin 8 c.toNat, Option.map_eq_bind]
  simp only [bin_toNat, getElem?_bitsOf, if_pos hbit, Function.comp_def]

/-- Settles O40. -/
theorem bytesToBitsPositions : Obligations.BytesToBitsPositions := getElem?_bytesToBits

/-! ### Hex text to bits (R92) -/

@[simp] theorem hexToBits_cons (c : Byte) (h : Bytes) : hexToBits (c :: h) = hexSymbols c ++ hexToBits h := List.flatMap_cons

/-- Symbol `j` comes from character `j / 4`, most significant bit first. -/
theorem getElem?_hexToBits {h : Bytes} (hd : ∀ c ∈ h, isHexDigit c = true) {j v : Nat} {c : Byte} (hc : h[j / 4]? = some c)
    (hv : hexVal c = some v) : (hexToBits h)[j]? = some ((BitVec.ofNat 4 v).getMsbD (j % 4)) := by
  rw [hexToBits, getElem?_flatMap_groups 4 (by omega) _ h fun d hd' => length_hexSymbols (hd d hd'), hc, Option.bind_some,
    hexSymbols_of hv, bin, getElem?_bitsOf, if_pos (Nat.mod_lt j (by omega))]

/-- The four symbols of a character stand together at its place. -/
theorem drop_take_hexToBits {h : Bytes} (hd : ∀ c ∈ h, isHexDigit c = true) {j v : Nat} {c : Byte} (hc : h[j]? = some c)
    (hv : hexVal c = some v) : ((hexToBits h).drop (4 * j)).take 4 = bin 4 v := by
  refine List.ext_getElem? fun i => ?_
  rw [bin, getElem?_bitsOf, List.getElem?_take, List.getElem?_drop]
  split
  next hi =>
    have hplace : (4 * j + i) / 4 = j := by omega
    have hbit : (4 * j + i) % 4 = i := by omega
    rw [getElem?_hexToBits hd (hplace.symm ▸ hc) hv, hbit]
  next => rfl

/-- The symbols of a byte are those of its high nibble followed by those of its low nibble (R54). -/
theorem bitsOf_nibbles (a : Nat) {b : Nat} (hb : b < 16) : bitsOf (BitVec.ofNat 8 (16 * a + b)) = bin 4 a ++ bin 4 b := by
  have hbyte : BitVec.ofNat 4 a ++ BitVec.ofNat 4 b = BitVec.ofNat 8 (16 * a + b) := by
    apply BitVec.eq_of_toNat_eq
    rw [toNat_append_eq, BitVec.toNat_ofNat, BitVec.toNat_ofNat, BitVec.toNat_ofNat]
    omega
  rw [← hbyte, bitsOf_append, bin, bin]

/-- A text of pairs gives the bits of the bytes the pairs spell, the first of a pair the high nibble. -/
theorem hexToBits_pairs (p : List (Byte × Byte)) (vs : List (Nat × Nat))
    (h : p.map (fun x => (hexVal x.1, hexVal x.2)) = vs.map (fun v => (some v.1, some v.2))) :
    hexToBits (p.flatMap fun x => [x.1, x.2]) = bytesToBits (vs.map fun v => BitVec.ofNat 8 (16 * v.1 + v.2)) := by
  induction p generalizing vs with
  | nil => rw [List.map_eq_nil_iff.mp h.symm]; rfl
  | cons x p ih =>
    obtain _ | ⟨v, vs⟩ := vs
    · cases h
    · simp only [List.map_cons, List.cons.injEq, Prod.mk.injEq] at h
      obtain ⟨⟨hhigh, hlow⟩, hrest⟩ := h
      rw [List.map_cons, bytesToBits_cons, bitsOf_nibbles v.1 (hexVal_lt hlow), ← ih vs hrest, ← hexSymbols_of hhigh,
        ← hexSymbols_of hlow]
      simp

/-! ### Which symbols reach `ENT` (R96, R97) -/

/-- A text that passes `HexCheck` has the 149 symbols that are used, and more. -/
theorem le_length_hexToBits {h : Bytes} (hh : hexCheck h = true) : 149 ≤ (hexToBits h).length := by
  obtain ⟨hd, hlen⟩ := (hexCheck_iff h).mp hh
  rw [length_hexToBits hd]
  omega

theorem getMsbD_trunc149 {s : BitString} (h : 149 ≤ s.length) {j : Nat} (hj : j < 149) :
    (trunc149 s).getMsbD j = (s[j]?).getD false := by
  rw [trunc149, getMsbD_ofBits (by simp [h]), List.getElem?_take_of_lt hj]

/-- What follows the first 149 symbols does not reach `ENT`. -/
theorem trunc149_append {s : BitString} (h : 149 ≤ s.length) (t : BitString) : trunc149 (s ++ t) = trunc149 s := by
  rw [trunc149, trunc149, List.take_append_of_le_length h]

/-- The last character of a text that passes `HexCheck` lies beyond the first 38, so its symbols do not reach `ENT`. -/
theorem trunc149_hexToBits_append_singleton {h : Bytes} {c : Byte} (hh : hexCheck (h ++ [c]) = true) :
    trunc149 (hexToBits (h ++ [c])) = trunc149 (hexToBits h) := by
  obtain ⟨hd, hlen⟩ := (hexCheck_iff _).mp hh
  have hbits := length_hexToBits fun d hd' => hd d (List.mem_append_left _ hd')
  rw [List.length_append, List.length_singleton] at hlen
  rw [hexToBits_append, trunc149_append (by omega)]

/-- Settles O41. -/
theorem hexTextToBits : Obligations.HexTextToBits := by
  refine ⟨fun h hall => ?_, hexToBits_pairs, fun _ _ => trunc149_hexToBits_append_singleton⟩
  have hd := List.all_eq_true.mp hall
  refine ⟨length_hexToBits hd, fun j c hc => ?_⟩
  obtain ⟨v, hv⟩ := (isHexDigit_iff c).mp (hd c (List.mem_of_getElem? hc))
  exact ⟨v, hv, drop_take_hexToBits hd hc hv⟩

/-- Bit `j` of the entropy of a text is bit `j % 4` of character `j / 4`. -/
theorem getMsbD_trunc149_hexToBits {h : Bytes} (hh : hexCheck h = true) {j v : Nat} {c : Byte} (hj : j < 149)
    (hc : h[j / 4]? = some c) (hv : hexVal c = some v) :
    (trunc149 (hexToBits h)).getMsbD j = (BitVec.ofNat 4 v).getMsbD (j % 4) := by
  obtain ⟨hd, -⟩ := (hexCheck_iff h).mp hh
  rw [getMsbD_trunc149 (le_length_hexToBits hh) hj, getElem?_hexToBits hd hc hv, Option.getD_some]

/-- Each of the first 39 characters of a text that passes `HexCheck` has a value. -/
theorem exists_hexVal_of_hexCheck {h : Bytes} (hh : hexCheck h = true) {k : Nat} (hk : k < 39) :
    ∃ c v, h[k]? = some c ∧ hexVal c = some v := by
  obtain ⟨hd, hlen⟩ := (hexCheck_iff h).mp hh
  have hc : h[k]? = some h[k] := List.getElem?_eq_getElem (by omega)
  obtain ⟨v, hv⟩ := (isHexDigit_iff h[k]).mp (hd _ (List.mem_of_getElem? hc))
  exact ⟨h[k], v, hc, hv⟩

/-- The top bit of a nibble says whether it is at least 8. -/
theorem getMsbD_zero_nibble {v : Nat} (hv : v < 16) : (BitVec.ofNat 4 v).getMsbD 0 = decide (8 ≤ v) := by
  have hall : ∀ n : Fin 16, (BitVec.ofNat 4 n.val).getMsbD 0 = decide (8 ≤ n.val) := by decide
  exact hall ⟨v, hv⟩

/-- Texts that agree on characters 0 to 36 and on the top bit of character 37 have one entropy (R97): bits 0 to 147 come
from the former, bit 148 is the latter. -/
theorem trunc149_hexToBits_congr {h h' : Bytes} (hh : hexCheck h = true) (hh' : hexCheck h' = true)
    (hfirst : ∀ k < 37, (h[k]?).map hexVal = (h'[k]?).map hexVal)
    (htop : ∀ c c' v v', h[37]? = some c → h'[37]? = some c' → hexVal c = some v → hexVal c' = some v' → (8 ≤ v ↔ 8 ≤ v')) :
    trunc149 (hexToBits h) = trunc149 (hexToBits h') := by
  refine BitVec.eq_of_getMsbD_eq fun j hj => ?_
  obtain ⟨c, v, hc, hv⟩ := exists_hexVal_of_hexCheck hh (k := j / 4) (by omega)
  obtain ⟨c', v', hc', hv'⟩ := exists_hexVal_of_hexCheck hh' (k := j / 4) (by omega)
  rw [getMsbD_trunc149_hexToBits hh hj hc hv, getMsbD_trunc149_hexToBits hh' hj hc' hv']
  obtain hlt | rfl : j < 148 ∨ j = 148 := by omega
  · have hagree := hfirst (j / 4) (by omega)
    rw [hc, hc', Option.map_some, Option.map_some, hv, hv', Option.some.injEq, Option.some.injEq] at hagree
    rw [hagree]
  · rw [getMsbD_zero_nibble (hexVal_lt hv), getMsbD_zero_nibble (hexVal_lt hv'), decide_eq_decide]
    exact htop c c' v v' hc hc' hv hv'

/-- Bit `j` of the entropy of a draw is bit `j % 8` of digest byte `j / 8`. -/
theorem getMsbD_e2bRng (r : Draw) {j : Nat} (hj : j < 149) :
    (e2bRng r).getMsbD j = ((sha256 r.toList)[j / 8]).getMsbD (j % 8) := by
  have hbits : 149 ≤ (rngEntropy r).length := by rw [rngEntropy, length_bytesToBits, Vector.length_toList]; omega
  have hbyte : (sha256 r.toList).toList[j / 8]? = some (sha256 r.toList)[j / 8] := by
    rw [List.getElem?_eq_getElem (by rw [Vector.length_toList]; omega), Vector.getElem_toList]
  rw [e2bRng, getMsbD_trunc149 hbits hj, rngEntropy, getElem?_bytesToBits, hbyte, Option.map_some, Option.getD_some]

/-- `ENCODE.HEX` on a text that passes `HexCheck` encodes the entropy of the text (R141). -/
theorem exec_encodeHex_of_hexCheck {s : State} (hh : hexCheck s.hex = true) :
    exec .encodeHex s = .next (s.encodeCore (trunc149 (hexToBits s.hex))) := by
  simp only [exec, execEncodeHex, e2bHex, if_pos hh]

/-- Settles O42: the entropy is read off bit by bit on either path, and the mnemonic depends on the text through it alone. -/
theorem whichSymbolsMatter : Obligations.WhichSymbolsMatter := by
  refine ⟨fun h hh j c v hj hc hv => getMsbD_trunc149_hexToBits hh hj hc hv,
    fun s h h' hh hh' hfirst htop => ?_, fun r j => getMsbD_e2bRng r j.isLt⟩
  refine ⟨_, _, exec_encodeHex_of_hexCheck hh, exec_encodeHex_of_hexCheck hh', ?_⟩
  simp [State.encodeCore_eq, trunc149_hexToBits_congr hh hh' hfirst htop]

end Sys2Proof.Machine
end

section
/-! SUPPORT. The checksum unit (spec/41_checksum.md): the message that is hashed (R110, R111), and which digest bits the
checksum takes (R112). -/

namespace Sys2Proof.Machine

/-! ### The hashed message (R110, R111) -/

/-- Byte `j` of the text is the digit of symbol `j`. -/
theorem getElem?_ascii (s : BitString) (j : Nat) : (ascii s)[j]? = (s[j]?).map fun b => if b then 0x31#8 else 0x30#8 :=
  List.getElem?_map

/-- Settles O43: the message is `Ascii` of the entropy's symbols, and byte `j` of it comes from symbol `j`. -/
theorem checksumInputIsText : Obligations.ChecksumInputIsText := by
  refine ⟨getElem?_ascii, fun ent => ⟨ascii (bitsOf ent), ?_, fun j hj => ?_, rfl⟩⟩
  · rw [length_ascii, length_bitsOf]
  · rw [getElem?_ascii, getElem?_bitsOf, if_pos hj, Option.map_some]

/-! ### The digest bits of the checksum (R112) -/

/-- The first symbols of a digest's bits, up to eight of them, are those of byte 0. -/
theorem getElem?_bytesToBits_digest (d : Digest) {j : Nat} (hj : j < 8) :
    (bytesToBits d.toList)[j]? = some ((d[0]).getMsbD j) := by
  have hbyte : d.toList[0]? = some d[0] := by
    rw [List.getElem?_eq_getElem (by rw [Vector.length_toList]; omega), Vector.getElem_toList]
  rw [getElem?_bytesToBits, Nat.div_eq_of_lt hj, Nat.mod_eq_of_lt hj, hbyte, Option.map_some]

theorem length_take_five_digest (d : Digest) : ((bytesToBits d.toList).take 5).length = 5 := by
  rw [List.length_take, length_bytesToBits, Vector.length_toList]; rfl

/-- `First5` is a substring of byte 0. -/
theorem first5_eq_sub (d : Digest) : first5 d = sub d[0] 0 5 := by
  refine BitVec.eq_of_getMsbD_eq fun j hj => ?_
  rw [first5, getMsbD_ofBits (length_take_five_digest d), List.getElem?_take_of_lt hj,
    getElem?_bytesToBits_digest d (by omega), Option.getD_some, getMsbD_sub _ (by omega) hj, Nat.zero_add]

/-- The five top bits of a byte are the byte divided by 8. -/
theorem sub_zero_five_byte (c : Byte) : sub c 0 5 = BitVec.ofNat 5 (c.toNat / 8) := by
  apply BitVec.eq_of_toNat_eq
  rw [sub, BitVec.extractLsb'_toNat, BitVec.toNat_ofNat, Nat.shiftRight_eq_div_pow]

/-- Settles O44: the symbols are those `First5` is built of, and the other two forms are read off byte 0
(`first5_eq_sub`). -/
theorem firstFiveBits : Obligations.FirstFiveBits := by
  refine fun d => ⟨bitsOf_ofBits (length_take_five_digest d), ?_, fun j hj => ?_⟩
  · rw [first5_eq_sub, sub_zero_five_byte]
  · rw [first5_eq_sub, getMsbD_sub _ (by omega) hj, Nat.zero_add]

end Sys2Proof.Machine
end

section
/-! SUPPORT. The word mapper (spec/42_word_mapper.md): cutting a text byte by byte (R124), lookups in both directions (R126),
an index against its 11 symbols (R128), and the two directions of the mapper (R130). -/

namespace Sys2Proof.Machine

open Sys2Proof.Config

/-! ### Cutting a text (R124) -/

@[simp] theorem splitWords_nil : splitWords [] = [[]] := List.splitOn_nil 0x20#8

/-- A byte 0x20 ends the token before it. -/
@[simp] theorem splitWords_cons_space (b : Bytes) : splitWords (0x20#8 :: b) = [] :: splitWords b := by
  rw [splitWords, List.splitOn_cons_eq_if_modifyHead, if_pos (beq_self_eq_true _), splitWords]

/-- Any other byte goes to the front of the first token. -/
theorem exists_splitWords_cons {c : Byte} (hc : c ≠ 0x20#8) (b : Bytes) :
    ∃ t ts, splitWords b = t :: ts ∧ splitWords (c :: b) = (c :: t) :: ts := by
  obtain ⟨t, ts, hb⟩ := List.exists_cons_of_ne_nil (List.splitOn_ne_nil 0x20#8 b)
  refine ⟨t, ts, hb, ?_⟩
  rw [splitWords, List.splitOn_cons_eq_if_modifyHead, if_neg (mt beq_iff_eq.mp hc), hb, List.modifyHead_cons]

theorem length_splitWords (b : Bytes) : (splitWords b).length = b.count 0x20#8 + 1 := by
  induction b with
  | nil => rw [splitWords_nil, List.count_nil, List.length_singleton]
  | cons c b ih =>
    by_cases hc : c = 0x20#8
    · rw [hc, splitWords_cons_space, List.length_cons, ih, List.count_cons_self]
    · obtain ⟨t, ts, hb, hcb⟩ := exists_splitWords_cons hc b
      rw [hcb, List.length_cons, ← List.length_cons, ← hb, ih, List.count_cons_of_ne hc]

theorem space_notMem_of_mem_splitWords {b t : Bytes} (ht : t ∈ splitWords b) : 0x20#8 ∉ t := by
  induction b generalizing t with
  | nil =>
    rw [splitWords_nil, List.mem_singleton] at ht
    exact ht ▸ List.not_mem_nil
  | cons c b ih =>
    by_cases hc : c = 0x20#8
    · rw [hc, splitWords_cons_space] at ht
      obtain rfl | ht := List.mem_cons.mp ht
      · exact List.not_mem_nil
      · exact ih ht
    · obtain ⟨u, us, hb, hcb⟩ := exists_splitWords_cons hc b
      rw [hcb] at ht
      obtain rfl | ht := List.mem_cons.mp ht
      · exact List.not_mem_cons_of_ne_of_not_mem (Ne.symm hc) (ih (hb ▸ List.mem_cons_self))
      · exact ih (hb ▸ List.mem_cons_of_mem u ht)

/-- Settles O46. -/
theorem splitAtEverySpace : Obligations.SplitAtEverySpace := fun b =>
  ⟨length_splitWords b, fun _ => space_notMem_of_mem_splitWords, joinWords_splitWords b⟩

/-! ### Lookups (R126) -/

/-- By W1 a lookup answers an index exactly when its entry is the token. -/
theorem wordToIdx_eq_some_iff {wl : Wordlist} (h : wl.toList.Nodup) {t : Bytes} {i : Index} :
    wordToIdx wl t = some i ↔ wl[i] = t :=
  ⟨wordToIdx_sound, fun hi => hi ▸ wordToIdx_getElem h i⟩

/-- A token is absent exactly when it is no entry. -/
theorem wordToIdx_eq_none_iff {wl : Wordlist} {t : Bytes} : wordToIdx wl t = none ↔ t ∉ wl.toList := by
  refine ⟨fun hnone ht => ?_, fun ht => Option.eq_none_iff_forall_ne_some.mpr fun i hi => ?_⟩
  · obtain ⟨i, hi⟩ := wordToIdx_isSome ht
    exact nomatch hnone.symm.trans hi
  · exact ht (wordToIdx_sound hi ▸ getElem_mem_toList wl i)

/-- By W2 and W3 the empty token and a token that is too long are no entries. -/
theorem notMem_wordlist_of_length {wl : Wordlist} (h : WordlistOk wl) {t : Bytes} (ht : t = [] ∨ wordMax < t.length) :
    t ∉ wl.toList := by
  intro hmem
  obtain ⟨hne, -, hlen⟩ := h.2 t hmem
  exact ht.elim hne hlen.not_gt

/-- Settles O47. -/
theorem lookupIsExact : Obligations.LookupIsExact := fun _ _ h =>
  ⟨fun _ => wordToIdx_eq_some_iff h.1, wordToIdx_eq_none_iff,
    fun ht => wordToIdx_eq_none_iff.mpr (notMem_wordlist_of_length h ht)⟩

/-! ### An index and its symbols (R128) -/

@[simp] theorem val_idxToBits (i : Index) : val (idxToBits i) = i.val := val_bin i.isLt

/-- Settles O48. -/
theorem indexBitsInverse : Obligations.IndexBitsInverse := by
  refine ⟨fun i => ⟨length_idxToBits i, val_idxToBits i⟩, fun s i hs hi => ?_⟩
  rw [idxToBits, hi, bin_val hs]

/-! ### The two directions of the mapper (R130) -/

/-- `MapIn` succeeds exactly on the texts of fourteen tokens that are all found (R129). -/
theorem mapIn_eq_ok_iff {wl : Wordlist} {b : Bytes} {full : BitVec 154} :
    mapIn wl b = .ok full ↔
      (splitWords b).length = 14 ∧ ∃ is, (splitWords b).mapM (wordToIdx wl) = some is ∧ fullOfIndices is = full := by
  by_cases hcount : (splitWords b).length = 14
  · rw [mapIn_of_count hcount]
    cases (splitWords b).mapM (wordToIdx wl) <;> simp [hcount]
  · simp [mapIn_of_bad_count hcount, hcount]

/-- By W2 cutting the phrase of a string gives the words of its indices. -/
theorem splitWords_mapOut {wl : Wordlist} (h : WordlistOk wl) (full : BitVec 154) :
    splitWords (mapOut wl full) = (indicesOf full).map (idxToWord wl) := by
  refine splitWords_joinWords (List.ne_nil_of_length_pos (by simp)) fun w hw => ?_
  obtain ⟨i, -, rfl⟩ := List.mem_map.mp hw
  obtain ⟨-, hspace, -⟩ := h.2 wl[i] (getElem_mem_toList wl i)
  exact hspace

/-- `MapIn` undoes `MapOut`: the phrase is cut into its words, their indices are found, and they give the string. -/
theorem mapIn_mapOut {wl : Wordlist} (h : WordlistOk wl) (full : BitVec 154) : mapIn wl (mapOut wl full) = .ok full := by
  rw [mapIn_eq_ok_iff, splitWords_mapOut h, List.length_map]
  exact ⟨length_indicesOf full, _, lookups_words h.1 _, fullOfIndices_indicesOf full⟩

/-- `MapOut` undoes `MapIn`, for every Wordlist: the tokens are the words of the indices found, and joined they are the
text. -/
theorem mapOut_of_mapIn {wl : Wordlist} {b : Bytes} {full : BitVec 154} (h : mapIn wl b = .ok full) : mapOut wl full = b := by
  obtain ⟨hcount, is, hlook, rfl⟩ := mapIn_eq_ok_iff.mp h
  have hwords := lookups_sound hlook
  have hlen : is.length = 14 := by rw [← hcount, hwords, List.length_map]
  rw [mapOut, indicesOf_fullOfIndices hlen, ← hwords, joinWords_splitWords]

/-- Settles O49. -/
theorem wordMapperInverse : Obligations.WordMapperInverse := fun _ h =>
  ⟨mapIn_mapOut h, fun _ _ => mapOut_of_mapIn⟩

end Sys2Proof.Machine
end

section
/-! SUPPORT. `DECODE` and `VALIDATE` (spec/44_decode_validate.md): a phrase fits its buffer, what the two commands do once
`DecodeCore` is known (R150 to R152), and the round trip (R153). -/

namespace Sys2Proof.Machine

open Sys2Proof.Config

/-! ### The length of a phrase (R28, W3) -/

/-- Joining puts one byte between neighbours: with one more at the end, each word takes its own length and one. -/
theorem length_joinWords_add_one {ws : List Bytes} (hne : ws ≠ []) :
    (joinWords ws).length + 1 = (ws.map fun w => w.length + 1).sum := by
  induction ws with
  | nil => exact absurd rfl hne
  | cons w ws ih =>
    by_cases hws : ws = []
    · simp [hws, joinWords]
    · have hjoin : joinWords (w :: ws) = w ++ [0x20#8] ++ joinWords ws := List.intercalate_cons_of_ne_nil hws
      rw [hjoin, List.map_cons, List.sum_cons, ← ih hws]
      simp only [List.length_append, List.length_singleton]
      omega

/-- Fourteen words of at most eight bytes and thirteen separators are at most 125 bytes. -/
theorem length_mapOut_le {wl : Wordlist} (h : WordlistOk wl) (full : BitVec 154) : (mapOut wl full).length ≤ 125 := by
  have hlen := length_joinWords_add_one (ws := (indicesOf full).map (idxToWord wl)) (List.ne_nil_of_length_pos (by simp))
  have hsum := List.sum_le_card_nsmul (((indicesOf full).map (idxToWord wl)).map fun w => w.length + 1) 9 fun n hn => by
    obtain ⟨w, hw, rfl⟩ := List.mem_map.mp hn
    obtain ⟨i, -, rfl⟩ := List.mem_map.mp hw
    obtain ⟨-, -, hword⟩ := h.2 wl[i] (getElem_mem_toList wl i)
    exact Nat.succ_le_succ hword
  rw [List.length_map, List.length_map, length_indicesOf, ← hlen] at hsum
  exact Nat.le_of_succ_le_succ hsum

/-- A phrase can be loaded, and loading it writes `MNI` alone. -/
theorem loadMnemonic_mapOut {wl : Wordlist} (h : WordlistOk wl) (full : BitVec 154) (s : State) :
    loadMnemonic (mapOut wl full) s = .next { s with mni := mapOut wl full } :=
  if_pos ((length_mapOut_le h full).trans (by decide))

/-! ### The commands on what `DecodeCore` accepts (R150 to R152) -/

/-- `DecodeCore` accepts the phrase of a string that verifies, with that string. -/
theorem decodeCore_mapOut {wl : Wordlist} (h : WordlistOk wl) {full : BitVec 154} (hv : verify full = true) :
    decodeCore wl (mapOut wl full) = .ok full := by
  simp only [decodeCore, mapIn_mapOut h, if_pos hv]

theorem exec_decode_of_ok {s : State} {full : BitVec 154} (h : decodeCore s.wl s.mni = .ok full) :
    exec .decode s = .next (s.commitDecode full) := by
  simp only [exec, execDecode, h]

theorem exec_validate_of_ok {s : State} {full : BitVec 154} (h : decodeCore s.wl s.mni = .ok full) :
    exec .validate s = .next s.commitValidate := by
  simp only [exec, execValidate, h]

/-! ### The round trip (R153) -/

/-- The phrase of a string that verifies brings the string back. -/
theorem phraseRestores_mapOut {wl : Wordlist} (h : WordlistOk wl) {full : BitVec 154} (hv : verify full = true) :
    PhraseRestores wl (mapOut wl full) full (entOf full) := by
  rintro s rfl
  have hcore := decodeCore_mapOut h hv
  refine ⟨_, _, _, loadMnemonic_mapOut h full s, ⟨exec_decode_of_ok hcore, statusDecoded_eq, rfl, rfl, rfl⟩,
    exec_validate_of_ok hcore, statusValidated_eq, rfl, ?_⟩
  simp [State.flag]

/-- What `EncodeCore` delivers for any entropy is brought back by the phrase it delivers with it. -/
theorem State.encodeCore_phraseRestores {s : State} (h : WordlistOk s.wl) (ent : BitVec 149) :
    ∃ (m : Bytes) (f : BitVec 154), (s.encodeCore ent).status = 0x0D#8 ∧ (s.encodeCore ent).err = 0#4 ∧
      (s.encodeCore ent).mno = some m ∧ (s.encodeCore ent).full = some f ∧ (s.encodeCore ent).wl = s.wl ∧
      PhraseRestores s.wl m f ent := by
  have hrestores := phraseRestores_mapOut h (verify_encoded ent)
  rw [entOf_append] at hrestores
  rw [State.encodeCore_eq]
  exact ⟨_, _, statusEncoded_eq, rfl, rfl, rfl, rfl, hrestores⟩

/-- `ENCODE.RNG` spends the draw at the port and encodes its entropy (R140). -/
theorem exec_encodeRng_port (s : State) (r : Draw) :
    exec .encodeRng { s with rngPort := r :: s.rngPort } = .next (s.encodeCore (e2bRng r)) := by
  simp only [exec, execEncodeRng, State.takeDraw_port]

/-- Settles O18: both encode commands end in `EncodeCore`, whose phrase brings its string and entropy back
(`State.encodeCore_phraseRestores`). -/
theorem roundTrip : Obligations.RoundTrip := by
  refine fun s hwl => ⟨fun hhex => ?_, fun r => ?_⟩
  · obtain ⟨m, f, hencoded⟩ := State.encodeCore_phraseRestores hwl (trunc149 (hexToBits s.hex))
    exact ⟨_, m, f, exec_encodeHex_of_hexCheck hhex, hencoded⟩
  · obtain ⟨m, f, hencoded⟩ := State.encodeCore_phraseRestores hwl (e2bRng r)
    exact ⟨_, m, f, exec_encodeRng_port s r, hencoded⟩

end Sys2Proof.Machine
end

section
/-! SUPPORT. `NOP` and the reserved bytes (spec/45_system.md R160, R162). -/

namespace Sys2Proof.Machine

/-- `NOP` answers the state it was given (R160). -/
theorem exec_nop (s : State) : exec .nop s = .next s := rfl

/-- A reserved byte raises `IllegalCommand`; which byte it is does not show (R162). -/
theorem exec_reserved (c : Byte) (s : State) : exec (.reserved c) s = .next (s.raise false .illegalCommand) := rfl

/-- A failure that does not set `MINV`: the code of its kind, `DONE` and `ERRF`, no outputs, and the rest kept (R186). -/
theorem State.raise_false_eq (s : State) (k : Kind) :
    s.raise false k = { s with err := k.code, status := 0x03#8, full := none, mno := none } := by
  rw [State.raise, statusFailed_false]

/-- Settles O4: byte 0x00 is the first row of the map (`opcodeMapComplete`). -/
theorem nopChangesNothing : Obligations.NopChangesNothing := by
  obtain ⟨hdecode, -⟩ := opcodeMapComplete
  exact ⟨hdecode, exec_nop⟩

/-- Settles O7: a reserved byte decodes as reserved (`decodeByte_of_isReserved`), and its one effect is a failure without
`MINV` (`State.raise_false_eq`), with the code 8 of `IllegalCommand`. -/
theorem reservedByteFails : Obligations.ReservedByteFails := by
  intro c s hc
  have hcode : Kind.illegalCommand.code = 8#4 := rfl
  refine ⟨decodeByte_of_isReserved hc, ?_⟩
  rw [exec_reserved, State.raise_false_eq, hcode]

end Sys2Proof.Machine
end

section
/-! SUPPORT. The two halves of `FULL` for the Key Derivation Pipeline (spec/46_pipeline_boundary.md R170 to R172). -/

namespace Sys2Proof.Machine

theorem State.saltv_of_some {s : State} {f : BitVec 154} (h : s.full = some f) : s.saltv = some (saltOf f) := by
  rw [State.saltv, h, Option.map_some]

theorem State.seedv_of_some {s : State} {f : BitVec 154} (h : s.full = some f) : s.seedv = some (seedOf f) := by
  rw [State.seedv, h, Option.map_some]

theorem bitsOf_saltOf (f : BitVec 154) : bitsOf (saltOf f) = (bitsOf f).take 77 := by
  rw [saltOf, bitsOf_sub f (by omega), List.drop_zero]

/-- `SEEDV` is what `SALTV` leaves of `FULL`: nothing is cut off behind it, since 77 + 77 = 154 (R172). -/
theorem bitsOf_seedOf (f : BitVec 154) : bitsOf (seedOf f) = (bitsOf f).drop 77 := by
  have hlength : ((bitsOf f).drop 77).length ≤ 77 := by rw [List.length_drop, length_bitsOf]
  rw [seedOf, bitsOf_sub f (by omega), List.take_of_length_le hlength]

theorem bitsOf_eq_saltOf_append_seedOf (f : BitVec 154) : bitsOf f = bitsOf (saltOf f) ++ bitsOf (seedOf f) := by
  rw [bitsOf_saltOf, bitsOf_seedOf, List.take_append_drop]

/-- Settles O38: the views are `FULL`'s first 77 symbols (`bitsOf_saltOf`) and the rest of it (`bitsOf_seedOf`). -/
theorem pipelineViewsSplitFull : Obligations.PipelineViewsSplitFull := fun _ =>
  ⟨fun hnone => ⟨State.saltv_of_none hnone, State.seedv_of_none hnone⟩,
    fun f hsome => ⟨saltOf f, seedOf f, State.saltv_of_some hsome, State.seedv_of_some hsome,
      bitsOf_eq_saltOf_append_seedOf f, bitsOf_saltOf f⟩⟩

end Sys2Proof.Machine
end

section
/-! SUPPORT. The state right after reset (spec/70_reset_and_hazards.md R201): a command whose input fails its check, and a
block whose outputs hold no value. -/

namespace Sys2Proof.Machine

/-! ### Commands on inputs that fail their checks (R141, R151, R152) -/

/-- `ENCODE.HEX` on a text that fails `HexCheck` raises `InvalidEntropy` (R98, R141). -/
theorem exec_encodeHex_of_not_hexCheck {s : State} (h : hexCheck s.hex ≠ true) :
    exec .encodeHex s = .next (s.raise false .invalidEntropy) := by
  simp only [exec, execEncodeHex, e2bHex, if_neg h]

theorem exec_decode_of_error {s : State} {k : Kind} (h : decodeCore s.wl s.mni = .error k) :
    exec .decode s = .next (s.raise false k) := by
  simp only [exec, execDecode, h]

theorem exec_validate_of_error {s : State} {k : Kind} (h : decodeCore s.wl s.mni = .error k) :
    exec .validate s = .next (s.raise true k) := by
  simp only [exec, execValidate, h]

/-- The word count is the first thing `DecodeCore` tests (R150). -/
theorem decodeCore_of_bad_count {wl : Wordlist} {b : Bytes} (h : (splitWords b).length ≠ 14) :
    decodeCore wl b = .error .invalidWordCount := by
  simp only [decodeCore, mapIn_of_bad_count h]

/-- The empty text is one empty token, not fourteen (R124). -/
theorem decodeCore_nil (wl : Wordlist) : decodeCore wl [] = .error .invalidWordCount :=
  decodeCore_of_bad_count (by simp)

/-- `ENCODE.RNG` succeeds in every state (R140). -/
theorem exec_encodeRng_succeeds (s : State) :
    ∃ t, exec .encodeRng s = .next t ∧ t.status = 0x0D#8 ∧ t.err = 0#4 := by
  obtain ⟨t, ht, f, -, rfl⟩ := exec_effect .encodeRng s
  exact ⟨_, ht, statusEncoded_eq, rfl⟩

/-! ### Outputs that hold no value (R22, R186) -/

/-- A failure finds no output to drop: it shows in `STATUS` and `ERR` alone. -/
theorem State.raise_of_no_outputs {s : State} (hfull : s.full = none) (hmno : s.mno = none) (b : Bool) (k : Kind) :
    s.raise b k = { s with status := statusFailed b, err := k.code } := by
  rw [State.raise, ← hfull, ← hmno]

theorem act_read_of_none {s : State} {r : HostReg} (h : s.readReg r = none) : act (.read r) s = .refused (.noValue r) := by
  simp only [act, hostRead, h]

/-- With neither output holding a value, only `STATUS` and `ERR` can be read of what the block delivers. -/
theorem State.readOut_of_no_outputs {s : State} (hfull : s.full = none) (hmno : s.mno = none) {r : OutReg}
    (hstatus : r ≠ .status) (herr : r ≠ .err) : s.readOut r = none := by
  cases r with
  | status => exact absurd rfl hstatus
  | err => exact absurd rfl herr
  | full => rw [State.readOut, hfull, Option.map_none]
  | ent => rw [State.readOut, State.ent_of_none hfull, Option.map_none]
  | chk => rw [State.readOut, State.chk_of_none hfull, Option.map_none]
  | idx k => rw [State.readOut, State.idx_of_none hfull, Option.map_none]
  | saltv => rw [State.readOut, State.saltv_of_none hfull, Option.map_none]
  | seedv => rw [State.readOut, State.seedv_of_none hfull, Option.map_none]
  | mno => rw [State.readOut, hmno, Option.map_none]

/-! ### The latches of reset (R38) -/

theorem sameBlock_reset_iff {s : State} : SameBlock s State.reset ↔
    (s.status = 0x00#8 ∧ s.err = 0#4 ∧ s.full = none ∧ s.mno = none) ∧ s.hex = [] ∧ s.mni = [] := Iff.rfl

/-- `CLEAR` finds every latch at its reset value already. -/
theorem State.commitClear_of_sameBlock_reset {s : State} (h : SameBlock s State.reset) : s.commitClear = s := by
  obtain ⟨⟨hstatus, herr, hfull, hmno⟩, hhex, hmni⟩ := sameBlock_reset_iff.mp h
  cases s
  simp only at hstatus herr hfull hmno hhex hmni
  rw [State.commitClear, statusCleared_eq, hstatus, herr, hfull, hmno, hhex, hmni]

/-- Settles O34: `HEX` and `MNI` are empty, so the commands that read them fail their first check, and with no output to drop
a failure shows in `STATUS` and `ERR` alone (`State.raise_of_no_outputs`). -/
theorem firstCommandAfterReset : Obligations.FirstCommandAfterReset := by
  intro s hreset
  obtain ⟨⟨-, -, hfull, hmno⟩, hhex, hmni⟩ := sameBlock_reset_iff.mp hreset
  have hraise := State.raise_of_no_outputs hfull hmno
  have hhexCheck : hexCheck s.hex ≠ true := by rw [hhex]; decide
  have hdecode : decodeCore s.wl s.mni = .error .invalidWordCount := by rw [hmni, decodeCore_nil]
  have hread {r : OutReg} (hstatus : r ≠ .status) (herr : r ≠ .err) : act (.read (.out r)) s = .refused (.noValue (.out r)) :=
    act_read_of_none (State.readOut_of_no_outputs hfull hmno hstatus herr)
  refine ⟨exec_nop s, ?_, exec_encodeRng_succeeds s, ?_, ?_, ?_, fun c => ?_, fun r hr => ?_, fun k => ?_⟩
  · exact congrArg Host.Outcome.next (State.commitClear_of_sameBlock_reset hreset)
  · rw [exec_encodeHex_of_not_hexCheck hhexCheck, hraise, statusFailed_false, Kind.code]
  · rw [exec_decode_of_error hdecode, hraise, statusFailed_false, Kind.code]
  · rw [exec_validate_of_error hdecode, hraise, statusFailed_true, Kind.code]
  · rw [exec_reserved, hraise, statusFailed_false, Kind.code]
  · exact hread (ne_of_mem_of_not_mem hr (by decide)) (ne_of_mem_of_not_mem hr (by decide))
  · exact hread nofun nofun

end Sys2Proof.Machine
end

section
/-! SUPPORT. Decoding against encoding (spec/30_encoding.md R70 to R74, R80). -/

namespace Sys2Proof

/-- A well-formed command's byte decodes to the command: the six rows of R72 are evaluated, a reserved byte is its own. -/
theorem decodeByte_encode {i : Instr} (h : i.wf = true) : decodeByte (encode i) = i := by
  cases i with
  | nop => rfl
  | encodeRng => rfl
  | encodeHex => rfl
  | decode => rfl
  | validate => rfl
  | clear => rfl
  | reserved c => exact decodeByte_of_isReserved h

/-- A byte is reserved, and then carried in the command, or a row of the map of R72. -/
theorem encode_decodeByte (c : Byte) : (decodeByte c).wf = true ∧ encode (decodeByte c) = c := by
  by_cases hc : isReserved c = true
  · rw [decodeByte_of_isReserved hc]
    exact ⟨hc, rfl⟩
  · have hrows : ∀ b ∈ [0x00#8, 0x01#8, 0x09#8, 0x02#8, 0x03#8, 0x04#8], (decodeByte b).wf = true ∧ encode (decodeByte b) = b := by
      decide
    exact hrows c (mem_opcodeMap_of_not_isReserved hc)

/-- Settles O2. -/
theorem decodeEncodeAgree : Obligations.DecodeEncodeAgree := by
  refine ⟨fun i rest h => ?_, encode_decodeByte⟩
  rw [decodeBytes, decodeByte_encode h]

end Sys2Proof
end

section
/-! SUPPORT. The invariants of the state (spec/10_state.md §9, R40): the outcomes of a command meet them whatever was there
before, and so every step keeps them. -/

namespace Sys2Proof.Machine

/-! ### What `STATUS` and `ERR` can be (R29, R180) -/

/-- Bits 7:6 of `STATUS` are reserved and read as 0 (R29). -/
theorem FlagSet.reserved_pack (f : FlagSet) : f.pack.extractLsb' 6 2 = 0b00#2 := by
  obtain ⟨done, errf, ovf, ovm, valid, minv⟩ := f
  revert done errf ovf ovm valid minv
  decide

@[simp] theorem reserved_statusEncoded : statusEncoded.extractLsb' 6 2 = 0b00#2 := FlagSet.reserved_pack _
@[simp] theorem reserved_statusDecoded : statusDecoded.extractLsb' 6 2 = 0b00#2 := FlagSet.reserved_pack _
@[simp] theorem reserved_statusValidated : statusValidated.extractLsb' 6 2 = 0b00#2 := FlagSet.reserved_pack _
@[simp] theorem reserved_statusFailed (b : Bool) : (statusFailed b).extractLsb' 6 2 = 0b00#2 := FlagSet.reserved_pack _
@[simp] theorem reserved_statusCleared : statusCleared.extractLsb' 6 2 = 0b00#2 := FlagSet.reserved_pack _

/-- The codes of R40 (j). `InvalidInput` is the Pipeline's kind, which the block never raises (R189). -/
theorem Kind.code_mem {k : Kind} (h : k ≠ .invalidInput) : k.code ∈ [0#4, 1#4, 2#4, 3#4, 4#4, 5#4, 8#4] := by
  cases k with
  | invalidInput => exact absurd rfl h
  | invalidEntropy | invalidWordCount | unknownWord | checksumMismatch | internalChecksumMismatch | illegalCommand => decide

theorem ne_invalidInput_of_mem_decodeKinds {k : Kind} (h : k ∈ decodeKinds) : k ≠ .invalidInput :=
  ne_of_mem_of_not_mem h (by decide)

/-- `CLEAR` and the reset event do the same (R161, R200). -/
theorem State.resetBlock_eq_commitClear (s : State) : s.resetBlock = s.commitClear := rfl

end Sys2Proof.Machine

namespace Sys2Proof

open Sys2Proof.Machine

/-! ### States with the same latches -/

/-- The invariants speak of the latches and the ROM alone. -/
theorem StateInv.congr {s t : State} (h : StateInv s) (hblock : SameBlock t s) (hwl : t.wl = s.wl) : StateInv t := by
  obtain ⟨⟨hstatus, herr, hfull, hmno⟩, hhex, hmni⟩ := hblock
  have hflag (f : Flag) : t.flag f = s.flag f := by rw [State.flag, State.flag, hstatus]
  constructor <;> simp only [hflag, hstatus, herr, hfull, hmno, hhex, hmni, hwl]
  exacts [h.hexFits, h.mniFits, h.ovmThenOvf, h.ovfTells, h.ovmTells, h.errfTells, h.errfAlone, h.minvThenErrf,
    h.validThenNoOvm, h.fullVerifies, h.mnoIsPhrase, h.reservedZero, h.errKnown]

/-! ### The outcomes of a command (R187) -/

section Outcomes

variable {s : State}

theorem StateInv.raise (h : StateInv s) (b : Bool) {k : Kind} (hk : k ≠ .invalidInput) : StateInv (s.raise b k) := by
  have hcode := Kind.code_mem hk
  constructor <;> simp [State.flag, h.hexFits, h.mniFits, k.code_ne_zero]
  simpa [k.code_ne_zero] using hcode

theorem StateInv.commitEncode (h : StateInv s) {f : BitVec 154} (hf : verify f = true) :
    StateInv (s.commitEncode f (mapOut s.wl f)) := by
  constructor <;> simp [State.flag, h.hexFits, h.mniFits, hf]

theorem StateInv.commitDecode (h : StateInv s) {f : BitVec 154} (hf : verify f = true) : StateInv (s.commitDecode f) := by
  constructor <;> simp [State.flag, h.hexFits, h.mniFits, hf]

theorem StateInv.commitValidate (h : StateInv s) : StateInv s.commitValidate := by
  constructor <;> simp [State.flag, h.hexFits, h.mniFits]

/-- Empty latches meet the invariants, whatever they held before. -/
theorem stateInv_commitClear (s : State) : StateInv s.commitClear := by
  constructor <;> simp [State.flag]

end Outcomes

/-! ### One command, one action, one step -/

/-- A draw is outside the latches. -/
theorem StateInv.takeDraw {s : State} (h : StateInv s) : StateInv s.takeDraw.2 :=
  h.congr ⟨⟨s.takeDraw_status, s.takeDraw_err, s.takeDraw_full, s.takeDraw_mno⟩, s.takeDraw_hex, s.takeDraw_mni⟩ s.takeDraw_wl

/-- Every command keeps the invariants: what it does is one of the outcomes above. -/
theorem StateInv.of_execEffect {i : Instr} {s t : State} (h : StateInv s) (he : ExecEffect s t i) : StateInv t := by
  cases i with
  | nop => obtain rfl : t = s := he; exact h
  | encodeRng =>
    obtain ⟨f, hf, rfl⟩ := he
    simpa using h.takeDraw.commitEncode hf
  | encodeHex =>
    obtain ⟨f, hf, rfl⟩ | rfl := he
    · exact h.commitEncode hf
    · exact h.raise false (by decide)
  | decode =>
    obtain ⟨f, hf, rfl⟩ | ⟨k, hk, rfl⟩ := he
    · exact h.commitDecode hf
    · exact h.raise false (ne_invalidInput_of_mem_decodeKinds hk)
  | validate =>
    obtain rfl | ⟨k, hk, rfl⟩ := he
    · exact h.commitValidate
    · exact h.raise true (ne_invalidInput_of_mem_decodeKinds hk)
  | clear => obtain rfl : t = s.commitClear := he; exact stateInv_commitClear s
  | reserved c =>
    obtain rfl : t = s.raise false .illegalCommand := he
    exact h.raise false (by decide)

/-- Every action of the host keeps the invariants: a load by the capacity it tests, a command by the outcomes, and the
others write no latch or empty them all. -/
theorem StateInv.of_actEffect {a : Action} {s t : State} (h : StateInv s) (he : ActEffect s t a) : StateInv t := by
  cases a with
  | loadHex b => obtain ⟨hfits, rfl⟩ := he; exact { h with hexFits := hfits }
  | loadMnemonic b => obtain ⟨hfits, rfl⟩ := he; exact { h with mniFits := hfits }
  | writeCmd c => exact h.of_execEffect he
  | read r => obtain ⟨v, -, rfl⟩ := he; exact h.congr ⟨⟨rfl, rfl, rfl, rfl⟩, rfl, rfl⟩ rfl
  | write r => obtain rfl : t = s := he; exact h
  | reset => obtain rfl : t = s.resetBlock := he; exact s.resetBlock_eq_commitClear ▸ stateInv_commitClear s
  | resetDuring c => obtain rfl : t = s.resetBlock := he; exact s.resetBlock_eq_commitClear ▸ stateInv_commitClear s
  | label l => obtain rfl : t = s := he; exact h
  | ifGoto f l => obtain ⟨before, rest, rfl⟩ := he; exact h.congr ⟨⟨rfl, rfl, rfl, rfl⟩, rfl, rfl⟩ rfl

/-- Issuing an action is the host's affair and writes no latch. -/
theorem StateInv.issue {s : State} (h : StateInv s) (a : Action) (rest : List Action) : StateInv (s.issue a rest) :=
  h.congr ⟨⟨rfl, rfl, rfl, rfl⟩, rfl, rfl⟩ rfl

/-- Latches as reset leaves them meet the invariants, since they are what `CLEAR` leaves. -/
theorem stateInv_of_sameBlock_reset {s : State} (h : SameBlock s State.reset) : StateInv s :=
  State.commitClear_of_sameBlock_reset h ▸ stateInv_commitClear s

/-! ### The obligations -/

/-- Settles O27: a step is the host's next action, if there is one (`step_cases`), and that keeps the invariants
(`StateInv.of_actEffect`). -/
theorem everyStepKeepsInv : Obligations.EveryStepKeepsInv := by
  intro s t h hstep
  obtain ⟨-, rfl⟩ | ⟨a, rest, -, he⟩ := step_cases hstep
  · exact h
  · exact (h.issue a rest).of_actEffect he

/-- Settles O28. -/
theorem reachableStatesMeetInv : Obligations.ReachableStatesMeetInv := fun _ _ _ hreset hrun =>
  run_keeps (fun s t hstep h => everyStepKeepsInv s t h hstep) hrun (stateInv_of_sameBlock_reset hreset)

/-- Settles O26. -/
theorem resetMeetsInv : Obligations.ResetMeetsInv :=
  stateInv_of_sameBlock_reset ⟨⟨rfl, rfl, rfl, rfl⟩, rfl, rfl⟩

end Sys2Proof
end

section
/-! SUPPORT. One step (spec/20_memory.md §4 and §5) and the command byte it runs (spec/30_encoding.md R70). -/

namespace Sys2Proof.Machine

/-- Eight table bits are the command byte (R70). -/
theorem tableByte_eight {w : Nat} (h : w < 256) : tableByte 8 w = BitVec.ofNat 8 w := by
  rw [tableByte, Nat.mod_eq_of_lt (b := 2 ^ 8) h]

/-- Settles O3: a step issues the host's next action (`step_of_cons`), and a write of `CMD` is the action that runs the
command its byte decodes to. -/
theorem stepRunsDecodedCommand : Obligations.StepRunsDecodedCommand := by
  refine ⟨fun s => step_of_nil, fun s a rest => step_of_cons, fun s c rest => step_of_cons, fun s w hw => ?_⟩
  rw [← tableByte_eight hw]
  exact step_of_cons (s.withCommand_pending (tableByte 8 w))

end Sys2Proof.Machine
end

section
/-! SUPPORT. What each command delivers or reports, as a whole state (spec/43_encode.md, spec/44_decode_validate.md,
spec/45_system.md; the rows of R187 in spec/60_exceptions.md §3). -/

namespace Sys2Proof.Machine

open Sys2Proof.Config

/-! ### The outcomes with their values of `STATUS` (R187) -/

section Outcomes

variable (s : State)

theorem State.raise_true_eq (k : Kind) :
    s.raise true k = { s with err := k.code, status := 0x23#8, full := none, mno := none } := by
  rw [State.raise, statusFailed_true]

theorem State.commitEncode_eq (f : BitVec 154) (m : Bytes) :
    s.commitEncode f m = { s with full := some f, mno := some m, err := 0#4, status := 0x0D#8 } := by
  rw [State.commitEncode, statusEncoded_eq]

theorem State.commitDecode_eq (f : BitVec 154) :
    s.commitDecode f = { s with full := some f, mno := none, err := 0#4, status := 0x15#8 } := by
  rw [State.commitDecode, statusDecoded_eq]

theorem State.commitValidate_eq :
    s.commitValidate = { s with full := none, mno := none, err := 0#4, status := 0x11#8 } := by
  rw [State.commitValidate, statusValidated_eq]

theorem State.commitClear_eq :
    s.commitClear = { s with hex := [], mni := [], full := none, mno := none, err := 0#4, status := 0x00#8 } := by
  rw [State.commitClear, statusCleared_eq]

end Outcomes

/-! ### The encode commands (R140 to R142) -/

/-- A text fails `HexCheck` by its length or by a byte (R91). -/
theorem hexCheck_ne_true_iff {h : Bytes} : hexCheck h ≠ true ↔ h.length < 39 ∨ ∃ c ∈ h, isHexDigit c = false := by
  rw [ne_eq, hexCheck_iff, not_and_or, not_le, or_comm]
  simp

/-- With nothing at the port, `ENCODE.RNG` encodes the source's own draw, and the counter goes on (R140). -/
theorem exec_encodeRng_source {s : State} (h : s.rngPort = []) :
    exec .encodeRng s =
      .next (State.encodeCore { s with rngCount := s.rngCount + 1 } (e2bRng (rngDraw s.rngCount))) := by
  simp only [exec, execEncodeRng, State.takeDraw_source s h]

/-- Settles O8. -/
theorem encodeHexDelivers : Obligations.EncodeHexDelivers := by
  intro s hlen hdigits
  rw [exec_encodeHex_of_hexCheck ((hexCheck_iff s.hex).mpr ⟨hdigits, hlen⟩), State.encodeCore_eq, State.commitEncode_eq]

/-- Settles O9. -/
theorem encodeHexRejects : Obligations.EncodeHexRejects := by
  intro s hbad
  rw [exec_encodeHex_of_not_hexCheck (hexCheck_ne_true_iff.mpr hbad), State.raise_false_eq, Kind.code]

/-- Settles O10: the draw is the one at the port (`exec_encodeRng_port`) or the source's own (`exec_encodeRng_source`), and
`EncodeCore` commits whatever entropy it gets (`State.encodeCore_eq`). -/
theorem encodeRngDelivers : Obligations.EncodeRngDelivers := by
  refine ⟨fun s r => ?_, fun s hport => ?_⟩
  · rw [exec_encodeRng_port, State.encodeCore_eq, State.commitEncode_eq]
    rfl
  · rw [exec_encodeRng_source hport, State.encodeCore_eq, State.commitEncode_eq]
    rfl

/-! ### `DECODE` and `VALIDATE` (R150 to R152) -/

/-- Settles O12. -/
theorem decodeDelivers : Obligations.DecodeDelivers := by
  intro s full hwl hmni hv
  have hcore : decodeCore s.wl s.mni = .ok full := hmni ▸ decodeCore_mapOut hwl hv
  rw [exec_decode_of_ok hcore, State.commitDecode_eq]

/-- Settles O13. -/
theorem validateDelivers : Obligations.ValidateDelivers := by
  intro s full hwl hmni hv
  have hcore : decodeCore s.wl s.mni = .ok full := hmni ▸ decodeCore_mapOut hwl hv
  rw [exec_validate_of_ok hcore, State.commitValidate_eq]

/-- The outcomes of `DecodeCore` in the order of its tests: word count, lookups, checksum (R150, R191). -/
theorem decodeCore_cases (wl : Wordlist) (b : Bytes) :
    if b.count 0x20#8 ≠ 13 then decodeCore wl b = .error .invalidWordCount
    else if ∃ t ∈ splitWords b, t ∉ wl.toList then decodeCore wl b = .error .unknownWord
    else ∃ full, mapOut wl full = b ∧
      decodeCore wl b = if checksum (sub full 0 149) = sub full 149 5 then .ok full else .error .checksumMismatch := by
  have hlength := length_splitWords b
  split_ifs with hcount hunknown
  · exact decodeCore_of_bad_count (by omega)
  · have hmapIn := mapIn_of_count (wl := wl) (b := b) (by omega)
    rw [lookups_none_iff.mpr hunknown] at hmapIn
    simp only [decodeCore, hmapIn]
  · have hmapIn := mapIn_of_count (wl := wl) (b := b) (by omega)
    obtain ⟨is, his⟩ := Option.ne_none_iff_exists'.mp (mt lookups_none_iff.mp hunknown)
    rw [his] at hmapIn
    refine ⟨fullOfIndices is, mapOut_of_mapIn hmapIn, ?_⟩
    simp only [decodeCore, hmapIn, verify_iff, entOf, chkOf]

/-- A command that goes by what `DecodeCore` answers has the outcomes of `DecodeCore`, each where it applies. -/
theorem outcomes_of_decodeCore {s : State} {i : Instr} {succeeded : BitVec 154 → State} {failed : Kind → State}
    (hok : ∀ full, decodeCore s.wl s.mni = .ok full → exec i s = .next (succeeded full))
    (herror : ∀ k, decodeCore s.wl s.mni = .error k → exec i s = .next (failed k)) :
    if s.mni.count 0x20#8 ≠ 13 then exec i s = .next (failed .invalidWordCount)
    else if ∃ t ∈ splitWords s.mni, t ∉ s.wl.toList then exec i s = .next (failed .unknownWord)
    else ∃ full, mapOut s.wl full = s.mni ∧
      exec i s = if checksum (sub full 0 149) = sub full 149 5 then .next (succeeded full)
        else .next (failed .checksumMismatch) := by
  have hcases := decodeCore_cases s.wl s.mni
  split_ifs at hcases ⊢ with hcount hunknown
  · exact herror _ hcases
  · exact herror _ hcases
  · obtain ⟨full, hphrase, hcore⟩ := hcases
    refine ⟨full, hphrase, ?_⟩
    split_ifs at hcore ⊢ with hchecksum
    · exact hok _ hcore
    · exact herror _ hcore

/-- Settles O14. -/
theorem decodeOutcomes : Obligations.DecodeOutcomes := by
  intro s
  have houtcomes := outcomes_of_decodeCore (s := s) (fun _ => exec_decode_of_ok) fun _ => exec_decode_of_error
  simpa only [State.raise_false_eq, State.commitDecode_eq, Kind.code] using houtcomes

/-- Settles O15. -/
theorem validateOutcomes : Obligations.ValidateOutcomes := by
  intro s
  have houtcomes := outcomes_of_decodeCore (s := s) (fun _ => exec_validate_of_ok) fun _ => exec_validate_of_error
  simpa only [State.raise_true_eq, State.commitValidate_eq, Kind.code] using houtcomes

/-- Settles O16: both commands report what `DecodeCore` answers, and a failure differs in `MINV` alone. -/
theorem validateAgreesWithDecode : Obligations.ValidateAgreesWithDecode := by
  intro s
  cases hcore : decodeCore s.wl s.mni with
  | ok full =>
    refine ⟨_, _, exec_decode_of_ok hcore, exec_validate_of_ok hcore, rfl, ?_⟩
    simp [State.flag]
  | error k =>
    refine ⟨_, _, exec_decode_of_error hcore, exec_validate_of_error hcore, rfl, ?_⟩
    simp [State.flag]

/-- `DecodeCore` accepts exactly the phrases of strings that verify, each with its string. -/
theorem decodeCore_eq_ok_iff {wl : Wordlist} (h : WordlistOk wl) {b : Bytes} {full : BitVec 154} :
    decodeCore wl b = .ok full ↔ verify full = true ∧ b = mapOut wl full := by
  refine ⟨fun hcore => ?_, fun ⟨hv, hphrase⟩ => hphrase ▸ decodeCore_mapOut h hv⟩
  obtain ⟨hmapIn, hv⟩ := decodeCore_ok hcore
  exact ⟨hv, (mapOut_of_mapIn hmapIn).symm⟩

/-- Settles O17: `VALID` and `FULL` say what `DecodeCore` answered, which is known (`decodeCore_eq_ok_iff`). -/
theorem decodeAcceptsExactlyPhrases : Obligations.DecodeAcceptsExactlyPhrases := by
  intro s hwl
  simp only [← decodeCore_eq_ok_iff hwl]
  cases hcore : decodeCore s.wl s.mni with
  | ok full => exact ⟨_, exec_decode_of_ok hcore, by simp [State.flag]⟩
  | error k => exact ⟨_, exec_decode_of_error hcore, by simp [State.flag]⟩

/-! ### `CLEAR` (R161) and the reset event (R200) -/

theorem exec_clear (s : State) : exec .clear s = .next s.commitClear := rfl

/-- Settles O5. -/
theorem clearEmptiesEveryLatch : Obligations.ClearEmptiesEveryLatch := fun s => by
  rw [exec_clear, State.commitClear_eq]

/-- Settles O6: all three leave `State.resetBlock`. -/
theorem clearIsReset : Obligations.ClearIsReset := by
  intro s
  refine ⟨?_, fun _ => rfl, s.resetBlock, rfl, ⟨⟨rfl, rfl, rfl, rfl⟩, rfl, rfl⟩, rfl, rfl, rfl, rfl, rfl, rfl⟩
  rw [exec_clear, ← State.resetBlock_eq_commitClear]
  rfl

end Sys2Proof.Machine
end

section
/-! SUPPORT. All commands together (spec/60_exceptions.md §1 and §3, spec/30_encoding.md R75, spec/20_memory.md §4): the table of
outcomes, the codes written, the frame, and repetition. -/

namespace Sys2Proof.Machine

theorem Kind.code_of_mem_decodeKinds {k : Kind} (h : k ∈ decodeKinds) : k.code ∈ [2#4, 3#4, 4#4] := by
  have hall : ∀ k ∈ decodeKinds, k.code ∈ [2#4, 3#4, 4#4] := by decide
  exact hall k h

/-- The failure path of the self-check (R143), which no command takes. -/
theorem State.selfCheckAndCommit_of_not_verify {full : BitVec 154} (h : verify full = false) (s : State) (text : Bytes) :
    s.selfCheckAndCommit full text = s.raise false .internalChecksumMismatch := by
  rw [State.selfCheckAndCommit, if_neg (by simp [h])]

/-- Settles O19: each row is an effect of the command (`exec_effect`), with its value of `STATUS`. -/
theorem outcomeTable : Obligations.OutcomeTable := by
  refine ⟨fun i s => ?_, fun s full text hv => ?_⟩
  · obtain ⟨t, ht, he⟩ := exec_effect i s
    refine ⟨t, ht, ?_⟩
    cases i with
    | nop => exact he
    | encodeRng =>
      obtain ⟨f, -, rfl⟩ := he
      simp [statusEncoded_eq]
    | encodeHex =>
      obtain ⟨f, -, rfl⟩ | rfl := he
      · simp [statusEncoded_eq]
      · simp [statusFailed_false, Kind.code]
    | decode =>
      obtain ⟨f, -, rfl⟩ | ⟨k, hk, rfl⟩ := he
      · simp [statusDecoded_eq]
      · exact ⟨.inr ⟨statusFailed_false, Kind.code_of_mem_decodeKinds hk, rfl, rfl⟩, rfl, rfl⟩
    | validate =>
      obtain rfl | ⟨k, hk, rfl⟩ := he
      · simp [statusValidated_eq]
      · exact ⟨.inr ⟨statusFailed_true, Kind.code_of_mem_decodeKinds hk⟩, rfl, rfl, rfl, rfl⟩
    | clear =>
      obtain rfl : t = s.commitClear := he
      simp [statusCleared_eq]
    | reserved c =>
      obtain rfl : t = s.raise false .illegalCommand := he
      simp [statusFailed_false, Kind.code]
  · rw [State.selfCheckAndCommit_of_not_verify hv, State.raise_false_eq, Kind.code]

/-- Settles O23: the codes are read off the effects of the commands (`exec_effect`). -/
theorem onlyKnownCodesWritten : Obligations.OnlyKnownCodesWritten := by
  intro i s hi
  have hsubset : [2#4, 3#4, 4#4] ⊆ [0#4, 1#4, 2#4, 3#4, 4#4, 8#4] := by decide
  have hdecode {k : Kind} (hk : k ∈ decodeKinds) : k.code ∈ [0#4, 1#4, 2#4, 3#4, 4#4, 8#4] :=
    hsubset (Kind.code_of_mem_decodeKinds hk)
  obtain ⟨t, ht, he⟩ := exec_effect i s
  refine ⟨t, ht, ?_⟩
  cases i with
  | nop => exact absurd rfl hi
  | encodeRng =>
    obtain ⟨f, -, rfl⟩ := he
    simp [State.flag]
  | encodeHex =>
    obtain ⟨f, -, rfl⟩ | rfl := he
    · simp [State.flag]
    · simp [State.flag, Kind.code]
  | decode =>
    obtain ⟨f, -, rfl⟩ | ⟨k, hk, rfl⟩ := he
    · simp [State.flag]
    · exact ⟨hdecode hk, by simp [State.flag, k.code_ne_zero], by simp [State.flag]⟩
  | validate =>
    obtain rfl | ⟨k, hk, rfl⟩ := he
    · simp [State.flag]
    · exact ⟨hdecode hk, by simp [State.flag, k.code_ne_zero], fun _ => rfl⟩
  | clear =>
    obtain rfl : t = s.commitClear := he
    simp [State.flag]
  | reserved c =>
    obtain rfl : t = s.raise false .illegalCommand := he
    simp [State.flag, Kind.code]

/-- Every command but `ENCODE.RNG` leaves the draws alone (R75). -/
theorem exec_keeps_draws {i : Instr} {s t : State} (hi : i ≠ .encodeRng) (h : exec i s = .next t) :
    t.rngPort = s.rngPort ∧ t.rngCount = s.rngCount := by
  have he := effect_of_exec h
  cases i with
  | encodeRng => exact absurd rfl hi
  | nop => obtain rfl : t = s := he; exact ⟨rfl, rfl⟩
  | encodeHex => obtain ⟨f, -, rfl⟩ | rfl := he <;> exact ⟨rfl, rfl⟩
  | decode => obtain ⟨f, -, rfl⟩ | ⟨k, -, rfl⟩ := he <;> exact ⟨rfl, rfl⟩
  | validate => obtain rfl | ⟨k, -, rfl⟩ := he <;> exact ⟨rfl, rfl⟩
  | clear => obtain rfl : t = s.commitClear := he; exact ⟨rfl, rfl⟩
  | reserved c => obtain rfl : t = s.raise false .illegalCommand := he; exact ⟨rfl, rfl⟩

/-- Settles O20. -/
theorem commandFrame : Obligations.CommandFrame := by
  intro i s t h
  obtain ⟨hwl, hpending, hissued, hreads⟩ := exec_outside h
  exact ⟨hwl, hpending, hissued, hreads, fun hi => exec_keeps_buffers hi h, fun hi => exec_keeps_draws hi h⟩

/-- A command that keeps the buffers and the draws finds, on the state it left, what it found before. -/
theorem exec_again {i : Instr} {s t : State} (hclear : i ≠ .clear) (hrng : i ≠ .encodeRng) (h : exec i s = .next t) :
    exec i t = .next t := by
  by_cases hnop : i = .nop
  · rw [hnop, exec_nop]
  · obtain ⟨hwl, hpending, hissued, hreads⟩ := exec_outside h
    obtain ⟨hhex, hmni⟩ := exec_keeps_buffers hclear h
    obtain ⟨hport, hcount⟩ := exec_keeps_draws hrng h
    have ht : t = s.withOutputs t.status t.err t.full t.mno :=
      State.eq_withOutputs ⟨hhex.symm, hmni.symm, hwl.symm, hport.symm, hcount.symm⟩
        ⟨hwl.symm, hport.symm, hcount.symm, hpending.symm, hissued.symm, hreads.symm⟩
    rw [ht, exec_withOutputs _ _ _ _ _ hnop, h, ← ht]

/-- Settles O22: `CLEAR` finds the latches empty; every other command finds its inputs as they were (`exec_again`). -/
theorem repeatedCommandSameState : Obligations.RepeatedCommandSameState := by
  intro i s hrng
  by_cases hclear : i = .clear
  · subst hclear
    exact ⟨_, exec_clear s, rfl⟩
  · obtain ⟨t, ht, -⟩ := exec_effect i s
    exact ⟨t, ht, exec_again hclear hrng ht⟩

/-- Settles O11: `NOP` keeps `ERR`, and the codes every other command can write do not include 5 (`onlyKnownCodesWritten`). -/
theorem selfCheckNeverFails : Obligations.SelfCheckNeverFails := by
  intro i s
  by_cases hi : i = .nop
  · subst hi
    exact ⟨s, exec_nop s, fun herr => ⟨rfl, herr⟩⟩
  · obtain ⟨t, ht, hcode, -⟩ := onlyKnownCodesWritten i s hi
    exact ⟨t, ht, fun herr => absurd (herr ▸ hcode) (by decide)⟩

end Sys2Proof.Machine
end

section
/-! SUPPORT. The host's side of the block: loads, reads and ignored writes (spec/10_state.md), what may be read when
(spec/70_reset_and_hazards.md §3), and the host's branch (spec/30_encoding.md R78). -/

namespace Sys2Proof.Machine

open Sys2Proof.Config

/-! ### Loads and reads (R22 to R24, R39) -/

/-- Settles O31: the capacities are 64 and 255. -/
theorem loadsTakeWholeStrings : Obligations.LoadsTakeWholeStrings := fun _ _ => ⟨rfl, rfl⟩

theorem act_read_of_some {s : State} {r : HostReg} {v : ReadValue} (h : s.readReg r = some v) :
    act (.read r) s = .next { s with reads := ⟨r, v⟩ :: s.reads } := by
  simp only [act, hostRead, h]

/-- A read completes exactly when the register holds a value (R22). -/
theorem exists_act_read_iff {s : State} {r : HostReg} : (∃ t, act (.read r) s = .next t) ↔ (s.readReg r).isSome = true := by
  cases h : s.readReg r with
  | none => simp [act_read_of_none h]
  | some v => simp [act_read_of_some h]

/-- `FULL` and its views hold a value together (R26, R27, R170, R171). -/
theorem State.isSome_readOut_of_full (s : State) {r : OutReg} (hstatus : r ≠ .status) (herr : r ≠ .err) (hmno : r ≠ .mno) :
    (s.readOut r).isSome = s.full.isSome := by
  cases r with
  | status => exact absurd rfl hstatus
  | err => exact absurd rfl herr
  | mno => exact absurd rfl hmno
  | full => exact Option.isSome_map
  | ent => rw [State.readOut, State.ent, Option.isSome_map, Option.isSome_map]
  | chk => rw [State.readOut, State.chk, Option.isSome_map, Option.isSome_map]
  | idx k => rw [State.readOut, State.idx, Option.isSome_map, Option.isSome_map]
  | saltv => rw [State.readOut, State.saltv, Option.isSome_map, Option.isSome_map]
  | seedv => rw [State.readOut, State.seedv, Option.isSome_map, Option.isSome_map]

/-- A register reads as no value exactly when it is `MNO` or `FULL` or a view of it, and holds none (R22). -/
theorem State.readReg_eq_none_iff {s : State} {r : HostReg} : s.readReg r = none ↔
    r = .out .mno ∧ s.mno = none ∨
      s.full = none ∧ (r ∈ [.out .full, .out .ent, .out .chk, .out .saltv, .out .seedv] ∨ ∃ k, r = .out (.idx k)) := by
  cases r with
  | cmd | hex | mni => simp [State.readReg]
  | out r => cases r <;> simp [State.readReg, State.readOut, State.ent, State.chk, State.idx, State.saltv, State.seedv]

/-- Settles O32. -/
theorem hostReadsAndWrites : Obligations.HostReadsAndWrites := by
  refine fun s => ⟨fun r => ?_, rfl, rfl, rfl, fun _ => rfl, rfl, rfl, rfl, rfl, rfl, rfl, fun _ => rfl, rfl, rfl, fun _ => rfl⟩
  split_ifs with hnone
  · have hv := State.readReg_eq_none_iff.mpr hnone
    exact ⟨hv, act_read_of_none hv⟩
  · obtain ⟨v, hv⟩ := Option.ne_none_iff_exists'.mp (mt State.readReg_eq_none_iff.mp hnone)
    exact ⟨v, hv, act_read_of_some hv⟩

/-- Settles O33: a read completes when the register holds a value (`exists_act_read_iff`), and R40 (b) ties that to the
flag. -/
theorem readableUnderFlag : Obligations.ReadableUnderFlag := by
  intro s h
  have hfull {r : OutReg} (hstatus : r ≠ .status) (herr : r ≠ .err) (hmno : r ≠ .mno) :
      (∃ t, act (.read (.out r)) s = .next t) ↔ s.flag .ovf = true := by
    rw [exists_act_read_iff, h.ovfTells, State.readReg, s.isSome_readOut_of_full hstatus herr hmno]
  refine ⟨fun r hr => ?_, fun k => hfull nofun nofun nofun, ?_⟩
  · exact hfull (ne_of_mem_of_not_mem hr (by decide)) (ne_of_mem_of_not_mem hr (by decide)) (ne_of_mem_of_not_mem hr (by decide))
  · rw [exists_act_read_iff, h.ovmTells, State.readReg, State.readOut, Option.isSome_map]

/-! ### The host's branch (R78) -/

/-- The first place of a label splits a program into what stands before it, turned round, and what stands after it. -/
theorem splitAtLabel_of_notMem {l : Nat} {before : List Action} (h : .label l ∉ before) (passed after : List Action) :
    splitAtLabel l passed (before ++ .label l :: after) = some (.label l :: (before.reverse ++ passed), after) := by
  induction before generalizing passed with
  | nil => rw [List.nil_append, splitAtLabel, if_pos rfl, List.reverse_nil, List.nil_append]
  | cons a before ih =>
    have ha : a ≠ .label l := (List.ne_of_not_mem_cons h).symm
    rw [List.cons_append, splitAtLabel, if_neg ha, ih (List.not_mem_of_not_mem_cons h), List.reverse_cons, List.append_assoc,
      List.singleton_append]

/-- Settles O35: a taken branch goes on at the first place of its label in the whole program. -/
theorem hostBranch : Obligations.HostBranch := by
  intro s f l st hlast
  refine ⟨fun hflag => ?_, fun before after hprogram hlabel hflag => ?_⟩
  · simp only [act, hostIf, hlast, hflag, Bool.false_eq_true, if_false]
  · simp only [act, hostIf, hlast, hflag, if_true, hostGoto, hprogram, splitAtLabel_of_notMem hlabel, List.append_nil]

end Sys2Proof.Machine
end

section
/-! SUPPORT. Facts about the units: the bits of `STATUS` (spec/10_state.md R29), hex digits (spec/40_entropy_to_bits.md R90), the
least length of a phrase (spec/10_state.md R28), and how many checksums verify (spec/41_checksum.md R116). -/

namespace Sys2Proof.Machine

open Sys2Proof.Config

/-! ### The bits of `STATUS` (R29) -/

/-- Settles O24: the byte of the flags is checked for each of the 64 sets of flags. -/
theorem statusBits : Obligations.StatusBits := by
  refine ⟨fun ⟨done, errf, ovf, ovm, valid, minv⟩ => ?_, statusEncoded_eq, statusDecoded_eq, statusValidated_eq,
    statusFailed_false, statusFailed_true, statusCleared_eq⟩
  revert done errf ovf ovm valid minv
  decide

/-! ### Hex digits (R90) -/

theorem isHexDigit_iff_toNat (c : Byte) : isHexDigit c = true ↔
    0x30 ≤ c.toNat ∧ c.toNat ≤ 0x39 ∨ 0x41 ≤ c.toNat ∧ c.toNat ≤ 0x46 ∨ 0x61 ≤ c.toNat ∧ c.toNat ≤ 0x66 := by
  simp [isHexDigit, BitVec.le_def, or_assoc]

/-- `HexVal` tests the three ranges of R90 one after the other. -/
theorem hexVal_eq (c : Byte) : hexVal c =
    if 0x30 ≤ c.toNat ∧ c.toNat ≤ 0x39 then some (c.toNat - 0x30)
    else if 0x41 ≤ c.toNat ∧ c.toNat ≤ 0x46 then some (c.toNat - 0x41 + 10)
    else if 0x61 ≤ c.toNat ∧ c.toNat ≤ 0x66 then some (c.toNat - 0x61 + 10)
    else none := rfl

/-- Settles O39: the three ranges exclude each other. -/
theorem hexDigitValues : Obligations.HexDigitValues := by
  intro c
  refine ⟨isHexDigit_iff_toNat c, fun hlow hhigh => ?_, fun hlow hhigh => ?_, fun hlow hhigh => ?_, fun hno => ?_⟩
  · rw [hexVal_eq, if_pos ⟨hlow, hhigh⟩]
  · rw [hexVal_eq, if_neg (by omega), if_pos ⟨hlow, hhigh⟩]
  · rw [hexVal_eq, if_neg (by omega), if_neg (by omega), if_pos ⟨hlow, hhigh⟩]
  · have hranges := mt (isHexDigit_iff_toNat c).mpr (by simp [hno])
    rw [hexVal_eq, if_neg (by omega), if_neg (by omega), if_neg (by omega)]

/-! ### The length of a phrase (R28, W2) -/

/-- Fourteen words of at least one byte and thirteen separators are at least 27 bytes. -/
theorem le_length_mapOut {wl : Wordlist} (h : WordlistOk wl) (full : BitVec 154) : 27 ≤ (mapOut wl full).length := by
  have hlen := length_joinWords_add_one (ws := (indicesOf full).map (idxToWord wl)) (List.ne_nil_of_length_pos (by simp))
  have hsum := List.card_nsmul_le_sum (((indicesOf full).map (idxToWord wl)).map fun w => w.length + 1) 2 fun n hn => by
    obtain ⟨w, hw, rfl⟩ := List.mem_map.mp hn
    obtain ⟨i, -, rfl⟩ := List.mem_map.mp hw
    obtain ⟨hword, -⟩ := h.2 wl[i] (getElem_mem_toList wl i)
    exact Nat.succ_le_succ (List.length_pos_iff.mpr hword)
  rw [List.length_map, List.length_map, length_indicesOf, ← hlen] at hsum
  exact Nat.le_of_succ_le_succ hsum

/-- Settles O30: by R40 (h) `MNO` holds a phrase. -/
theorem phraseLengthBounds : Obligations.PhraseLengthBounds := by
  intro s m h hwl hm
  obtain ⟨f, -, rfl⟩ := h.mnoIsPhrase m hm
  exact ⟨le_length_mapOut hwl f, length_mapOut_le hwl f⟩

/-! ### How many checksums verify (R116) -/

/-- One suffix verifies for an entropy: its checksum. -/
theorem verify_append_iff (ent : BitVec 149) (c : BitVec 5) : verify (ent ++ c) = true ↔ c = checksum ent := by
  rw [verify_iff, entOf_append, chkOf_append, eq_comm]

/-- Two registers side by side determine both. -/
theorem append_inj {m n : Nat} {a c : BitVec m} {b d : BitVec n} (h : a ++ b = c ++ d) : a = c ∧ b = d := by
  have hleft := congrArg (sub · 0 m) h
  have hright := congrArg (sub · m n) h
  simp only [sub_append_left, sub_append_right] at hleft hright
  exact ⟨hleft, hright⟩

/-- A register is its first positions followed by its others. -/
theorem exists_eq_append {m n : Nat} (w : BitVec (m + n)) : ∃ (a : BitVec m) (b : BitVec n), w = a ++ b := by
  refine ⟨sub w 0 m, sub w m n, bitsOf_injective ?_⟩
  have hrest : ((bitsOf w).drop m).length ≤ n := by rw [List.length_drop, length_bitsOf]; omega
  rw [bitsOf_append, bitsOf_sub w (by omega), bitsOf_sub w le_rfl, List.drop_zero, List.take_of_length_le hrest,
    List.take_append_drop]

/-- A last word after thirteen others is six more symbols of entropy and then the stored checksum (R27). -/
theorem verify_append_word_iff (first13 : BitVec 143) (top : BitVec 6) (chk : BitVec 5) :
    verify (first13 ++ (top ++ chk)) = true ↔ chk = checksum (first13 ++ top) := by
  have hassoc : (first13 ++ (top ++ chk) : BitVec 154) = (first13 ++ top : BitVec 149) ++ chk :=
    bitsOf_injective (by simp only [bitsOf_append, List.append_assoc])
  rw [← verify_append_iff, ← hassoc]

/-- The last word that verifies after the first thirteen and the six more symbols of entropy `top`. -/
def lastWord (first13 : BitVec 143) (top : Fin 64) : Index :=
  (BitVec.ofFin (w := 6) top ++ checksum (first13 ++ BitVec.ofFin (w := 6) top)).toFin

theorem lastWord_injective (first13 : BitVec 143) : Function.Injective (lastWord first13) := by
  intro a b h
  obtain ⟨htop, -⟩ := append_inj (BitVec.toFin_inj.mp h)
  exact congrArg BitVec.toFin htop

/-- The last words that verify are those that their own first six symbols call for. -/
theorem verify_append_index_iff (first13 : BitVec 143) (j : Index) :
    verify (first13 ++ BitVec.ofNat 11 j.val) = true ↔ ∃ top, lastWord first13 top = j := by
  obtain ⟨top, chk, hword⟩ := exists_eq_append (m := 6) (n := 5) (BitVec.ofNat 11 j.val)
  have hj : j = (top ++ chk).toFin := by rw [← hword, BitVec.toFin_ofNat, Fin.ofNat_val_eq_self]
  rw [hword, verify_append_word_iff, hj]
  constructor
  · rintro rfl
    exact ⟨top.toFin, rfl⟩
  · rintro ⟨a, ha⟩
    obtain ⟨rfl, hchk⟩ := append_inj (BitVec.toFin_inj.mp ha)
    exact hchk.symm

/-- Settles O45: among the 2048 last words there is one that verifies for each of the 64 values of the last six symbols of
the entropy (`verify_append_index_iff`), and no two of them are the same (`lastWord_injective`). -/
theorem oneChecksumPerEntropy : Obligations.OneChecksumPerEntropy := by
  refine ⟨verify_append_iff, fun first13 => ?_⟩
  have hperm : ((List.finRange 2048).filter fun j : Index => verify (first13 ++ BitVec.ofNat 11 j.val)).Perm
      ((List.finRange 64).map (lastWord first13)) := by
    refine (List.perm_ext_iff_of_nodup ((List.nodup_finRange 2048).filter _)
      ((List.nodup_finRange 64).map (lastWord_injective first13))).mpr fun j => ?_
    simp only [List.mem_filter, List.mem_map, List.mem_finRange, true_and, verify_append_index_iff]
  rw [hperm.length_eq, List.length_map, List.length_finRange]

end Sys2Proof.Machine
end
